-- ==== Sys2Proof/Word.lean ====
section
/-! DEFINITION. The units of data: bytes, 32-bit words, byte strings (spec/20_memory.md R51, spec/00_scope.md section 7). -/

namespace Sys2Proof

/-- 8 bits, the unit of data (R51). -/
abbrev Byte := BitVec 8

/-- A 32-bit unsigned word (spec/00_scope.md section 7). -/
abbrev Word := BitVec 32

/-- A byte string; byte index 0 is the first byte on the stream (R51). -/
abbrev Bytes := List Byte

/-- A 4-bit slot field of the command header (R71). Which values name a slot depends on NCTX (R76). -/
abbrev SlotNo := Fin 16

end Sys2Proof
end

