-- ==== Sys2Proof/Machine/ByteOrder.lean ====
section
/-! DEFINITION. Byte order: the little-endian views of words, counts and digests (spec/20_memory.md R52,
spec/00_scope.md section 7). -/

namespace Sys2Proof.Machine

/-- `le32(w)`: four bytes, least significant first (spec/00_scope.md section 7). -/
def le32 (w : Word) : Bytes :=
  [w.extractLsb' 0 8, w.extractLsb' 8 8, w.extractLsb' 16 8, w.extractLsb' 24 8]

/-- `le64(n)`: eight bytes, least significant first (R52 (b)). -/
def le64 (n : BitVec 64) : Bytes :=
  [n.extractLsb' 0 8, n.extractLsb' 8 8, n.extractLsb' 16 8, n.extractLsb' 24 8,
   n.extractLsb' 32 8, n.extractLsb' 40 8, n.extractLsb' 48 8, n.extractLsb' 56 8]

/-- `b0 | b1 << 8 | b2 << 16 | b3 << 24` (R52 (a), R74). -/
def ofLe32 (b0 b1 b2 b3 : Byte) : Word :=
  b0.setWidth 32 ||| b1.setWidth 32 <<< 8 ||| b2.setWidth 32 <<< 16 ||| b3.setWidth 32 <<< 24

/-- `word_le(s, k)`: the word at bytes `4k .. 4k+3` of `s` (R52 (a), R101). A byte that `s` does not have
reads as 0; the rules use it only on strings that have all four (notes/assumptions/10.md). -/
def wordLe (s : Bytes) (k : Nat) : Word :=
  ofLe32 (s.getD (4 * k) 0) (s.getD (4 * k + 1) 0) (s.getD (4 * k + 2) 0) (s.getD (4 * k + 3) 0)

/-- `zeros(n)`: `n` zero bytes (R125). -/
def zeros (n : Nat) : Bytes := List.replicate n 0

/-- Bits 7:4 of a byte. -/
def highNibble (b : Byte) : Fin 16 := ⟨b.toNat / 16, by have := b.isLt; omega⟩

/-- Bits 3:0 of a byte. -/
def lowNibble (b : Byte) : Fin 16 := ⟨b.toNat % 16, by omega⟩

/-- The byte with the two nibbles given, high nibble first. -/
def ofNibbles (hi lo : Fin 16) : Byte := BitVec.ofNat 8 (16 * hi.val + lo.val)

end Sys2Proof.Machine
end

