-- ==== Sys2Proof/Config.lean ====
section
/-! DEFINITION. The parameters of the block (spec/00_scope.md R4). -/

namespace Sys2Proof.Config

/-- NCTX of `Machine.State.reset`. The spec leaves NCTX open, 1 to 16 (R4, D2); the model holds it as the
length of the context file, and the definitions and statements take it from there.
DESIGN CHOICE (notes/assumptions/1.md): 16, for which every 4-bit slot field names a slot (R76). -/
def nctx : Nat := 16

/-- The largest NCTX (R4). -/
def maxNctx : Nat := 16

/-- LENMAX: the largest byte length one VAR operand can carry (R4, R72). -/
def lenMax : Nat := 2 ^ 32 - 1

end Sys2Proof.Config
end

