-- ==== Sys2Proof/Syntax.lean ====
section
/-! DEFINITION. The decoded commands: one constructor per row of spec/opcode_table.json (spec/30_encoding.md R73),
and the pseudo-commands of R81. -/

namespace Sys2Proof

/-- The selector of ATTR (R27, R73): the three legal values of the CS field. -/
inductive AttrSel where
  | digestSize
  | blockSize
  | name
  deriving DecidableEq, Repr

/-- A decoded command: a mnemonic, slot numbers, byte strings (R73, R74). -/
inductive Instr where
  /-- 0x01 INIT cd (R121) -/
  | init (cd : SlotNo)
  /-- 0x02 UPDATE cd, data (R122) -/
  | update (cd : SlotNo) (data : Bytes)
  /-- 0x03 FINAL cd (R124) -/
  | final (cd : SlotNo)
  /-- 0x04 COPY cd, cs (R126) -/
  | copy (cd cs : SlotNo)
  /-- 0x05 FINALHEX cd (R173) -/
  | finalhex (cd : SlotNo)
  /-- 0x06 DIGEST cs (R181) -/
  | digest (cs : SlotNo)
  /-- 0x07 HEXDIGEST cs (R182) -/
  | hexdigest (cs : SlotNo)
  /-- 0x08 MD5 data (R172) -/
  | md5 (data : Bytes)
  /-- 0x09 XFORM state, block (R109) -/
  | xform (state block : Bytes)
  /-- 0x0A HEXENC digest (R171) -/
  | hexenc (dg : Bytes)
  /-- 0x0B A64ENC digest (R144) -/
  | a64enc (dg : Bytes)
  /-- 0x0C APR1ENC password, salt (R156) -/
  | apr1enc (password salt : Bytes)
  /-- 0x0D APR1VAL password, stored (R159) -/
  | apr1val (password stored : Bytes)
  /-- 0x0E ATTR selector (R183) -/
  | attr (sel : AttrSel)
  deriving DecidableEq, Repr

/-- The pseudo-commands: the names of the source's functional surface (R81). -/
inductive Pseudo where
  | md5Init
  | md5Update (data : Bytes)
  | md5Final
  | md5Encode (password salt : Bytes)
  | passwordValidate (password stored : Bytes)
  | hNew (cd : SlotNo)
  | hUpdate (cd : SlotNo) (data : Bytes)
  | hDigest (cs : SlotNo)
  | hHexdigest (cs : SlotNo)
  | hCopy (cd cs : SlotNo)
  deriving DecidableEq, Repr

end Sys2Proof
end

