-- ==== Sys2Proof/WellFormed.lean ====
section
/-! DEFINITION. Which decoded commands are legal for a block with NCTX slots (spec/30_encoding.md R72, R73, R76). -/

namespace Sys2Proof

/-- A slot field is legal when its value is below NCTX (R76). -/
def SlotNo.legal (nctx : Nat) (c : SlotNo) : Bool := decide (c.val < nctx)

/-- A VAR operand carries at most LENMAX bytes (R72). -/
def Bytes.isVar (b : Bytes) : Bool := decide (b.length ≤ Config.lenMax)

/-- A FIX(k) operand has exactly `k` bytes (R72). -/
def Bytes.isFix (k : Nat) (b : Bytes) : Bool := decide (b.length = k)

/-- The command is one that a legal frame of a block with `nctx` slots can carry (R72, R73, R76). -/
def Instr.wf (nctx : Nat) : Instr → Bool
  | .init cd => SlotNo.legal nctx cd
  | .update cd data => SlotNo.legal nctx cd && Bytes.isVar data
  | .final cd => SlotNo.legal nctx cd
  | .copy cd cs => SlotNo.legal nctx cd && SlotNo.legal nctx cs
  | .finalhex cd => SlotNo.legal nctx cd
  | .digest cs => SlotNo.legal nctx cs
  | .hexdigest cs => SlotNo.legal nctx cs
  | .md5 data => Bytes.isVar data
  | .xform state block => Bytes.isFix 16 state && Bytes.isFix 64 block
  | .hexenc dg => Bytes.isFix 16 dg
  | .a64enc dg => Bytes.isFix 16 dg
  | .apr1enc password salt => Bytes.isVar password && Bytes.isVar salt
  | .apr1val password stored => Bytes.isVar password && Bytes.isVar stored
  | .attr _ => true

end Sys2Proof
end

