-- ==== Sys2Proof/Machine/Operands.lean ====
section
/-! DEFINITION. The fields and operand forms of a command frame, and why one is ill-formed (spec/30_encoding.md R71,
R72, R74, R76, R77). -/

namespace Sys2Proof

open Machine

/-- Why a byte string is no command: the list of R77. Every reason is answered with E_ILLEGAL (R192). -/
inductive Illegal where
  /-- a frame shorter than 2 bytes, the empty frame included -/
  | shortFrame
  /-- opcode 0x00 or 0x0F to 0xFF -/
  | reservedOpcode (opc : Byte)
  /-- a header field that the command does not use is not zero -/
  | reservedField
  /-- a slot number that is not below NCTX -/
  | slotNumber (c : SlotNo)
  /-- an ATTR selector of 3 or more -/
  | selector (cs : Fin 16)
  /-- a frame too short for its operands, or a VAR length beyond the bytes that follow it -/
  | shortOperand
  /-- bytes left over after the last operand -/
  | trailingBytes
  deriving DecidableEq, Repr

/-- A header field the command does not use must be zero (R71). -/
def reservedZero (field : Fin 16) : Except Illegal Unit :=
  if field.val = 0 then .ok () else .error .reservedField

/-- A slot field must name a slot: no wrapping, no alias (R76). -/
def slotField (nctx : Nat) (c : SlotNo) : Except Illegal Unit :=
  if SlotNo.legal nctx c then .ok () else .error (.slotNumber c)

/-- FIX(k): the next `k` bytes (R72, R74). Answers the operand and the bytes after it. -/
def takeFix (k : Nat) (rest : Bytes) : Except Illegal (Bytes × Bytes) :=
  if rest.length < k then .error .shortOperand else .ok (rest.take k, rest.drop k)

/-- VAR: a 32-bit little-endian length, then that many bytes (R72, R74). Answers the operand and the bytes after it. -/
def takeVar : Bytes → Except Illegal (Bytes × Bytes)
  | b0 :: b1 :: b2 :: b3 :: tl => takeFix (ofLe32 b0 b1 b2 b3).toNat tl
  | _ => .error .shortOperand

/-- No byte may be left after the last operand (R74). -/
def endOfFrame (rest : Bytes) : Except Illegal Unit :=
  if rest.isEmpty then .ok () else .error .trailingBytes

/-- A VAR operand: `le32(n)`, then its `n` bytes (R72). -/
def encodeVar (b : Bytes) : Bytes := le32 (BitVec.ofNat 32 b.length) ++ b

end Sys2Proof
end

