-- ==== Sys2Proof/Decode.lean ====
section
/-! DEFINITION. Decoding of command frames, total on byte strings, and the encoder (spec/30_encoding.md R70 to R74,
R76, R77, R82). -/

namespace Sys2Proof

open Machine

/-- The command with no operands, or with all of them taken: nothing may follow (R74). -/
def finish (i : Instr) (rest : Bytes) : Except Illegal Instr := do
  endOfFrame rest
  return i

/-- Header format D: CD is a slot, CS is zero (R73). -/
def formatD (nctx : Nat) (cd cs : Fin 16) : Except Illegal Unit := do
  reservedZero cs
  slotField nctx cd

/-- Header format DS: CD and CS are slots (R73). -/
def formatDS (nctx : Nat) (cd cs : Fin 16) : Except Illegal Unit := do
  slotField nctx cd
  slotField nctx cs

/-- Header format S: CS is a slot, CD is zero (R73). -/
def formatS (nctx : Nat) (cd cs : Fin 16) : Except Illegal Unit := do
  reservedZero cd
  slotField nctx cs

/-- Header format N: both fields are zero (R73). -/
def formatN (cd cs : Fin 16) : Except Illegal Unit := do
  reservedZero cd
  reservedZero cs

/-- Header format SEL: CD is zero, CS is a selector 0, 1 or 2 (R73). -/
def formatSel (cd cs : Fin 16) : Except Illegal AttrSel := do
  reservedZero cd
  match cs.val with
  | 0 => return .digestSize
  | 1 => return .blockSize
  | 2 => return .name
  | _ => .error (.selector cs)

/-- The decoding of a frame whose first byte is `opc`, whose slot fields are `cd` and `cs` and whose bytes after
the header are `rest`: the rows of R73, each checked in the order of R74. -/
def decodeBody (nctx : Nat) (opc : Byte) (cd cs : Fin 16) (rest : Bytes) : Except Illegal Instr :=
  match opc.toNat with
  | 0x01 => do formatD nctx cd cs; finish (.init cd) rest
  | 0x02 => do
    formatD nctx cd cs
    let (data, rest) ← takeVar rest
    finish (.update cd data) rest
  | 0x03 => do formatD nctx cd cs; finish (.final cd) rest
  | 0x04 => do formatDS nctx cd cs; finish (.copy cd cs) rest
  | 0x05 => do formatD nctx cd cs; finish (.finalhex cd) rest
  | 0x06 => do formatS nctx cd cs; finish (.digest cs) rest
  | 0x07 => do formatS nctx cd cs; finish (.hexdigest cs) rest
  | 0x08 => do
    formatN cd cs
    let (data, rest) ← takeVar rest
    finish (.md5 data) rest
  | 0x09 => do
    formatN cd cs
    let (state, rest) ← takeFix 16 rest
    let (block, rest) ← takeFix 64 rest
    finish (.xform state block) rest
  | 0x0A => do
    formatN cd cs
    let (dg, rest) ← takeFix 16 rest
    finish (.hexenc dg) rest
  | 0x0B => do
    formatN cd cs
    let (dg, rest) ← takeFix 16 rest
    finish (.a64enc dg) rest
  | 0x0C => do
    formatN cd cs
    let (password, rest) ← takeVar rest
    let (salt, rest) ← takeVar rest
    finish (.apr1enc password salt) rest
  | 0x0D => do
    formatN cd cs
    let (password, rest) ← takeVar rest
    let (stored, rest) ← takeVar rest
    finish (.apr1val password stored) rest
  | 0x0E => do
    let sel ← formatSel cd cs
    finish (.attr sel) rest
  | _ => .error (.reservedOpcode opc)

/-- `Decode(frame)` for a block with `nctx` slots: the command, or the reason why the frame is ILLEGAL (R74). -/
def decodeFrame (nctx : Nat) : Bytes → Except Illegal Instr
  | opc :: slots :: rest => decodeBody nctx opc (highNibble slots) (lowNibble slots) rest
  | _ => .error .shortFrame

/-! ## The encoder (R71 to R73) -/

/-- The two header bytes: the opcode, then CD and CS (R71). -/
def header (opc : Byte) (cd cs : Fin 16) : Bytes := [opc, ofNibbles cd cs]

/-- The CS field of an ATTR frame (R27, R73). -/
def AttrSel.field : AttrSel → Fin 16
  | .digestSize => 0
  | .blockSize => 1
  | .name => 2

/-- The frame of a command (R71 to R73). -/
def encode : Instr → Bytes
  | .init cd => header 0x01 cd 0
  | .update cd data => header 0x02 cd 0 ++ encodeVar data
  | .final cd => header 0x03 cd 0
  | .copy cd cs => header 0x04 cd cs
  | .finalhex cd => header 0x05 cd 0
  | .digest cs => header 0x06 0 cs
  | .hexdigest cs => header 0x07 0 cs
  | .md5 data => header 0x08 0 0 ++ encodeVar data
  | .xform state block => header 0x09 0 0 ++ (state ++ block)
  | .hexenc dg => header 0x0A 0 0 ++ dg
  | .a64enc dg => header 0x0B 0 0 ++ dg
  | .apr1enc password salt => header 0x0C 0 0 ++ (encodeVar password ++ encodeVar salt)
  | .apr1val password stored => header 0x0D 0 0 ++ (encodeVar password ++ encodeVar stored)
  | .attr sel => header 0x0E 0 sel.field

/-- The one command a pseudo-command expands to; the legacy triple names slot 0 (R81). -/
def Pseudo.expand : Pseudo → Instr
  | .md5Init => .init 0
  | .md5Update data => .update 0 data
  | .md5Final => .finalhex 0
  | .md5Encode password salt => .apr1enc password salt
  | .passwordValidate password stored => .apr1val password stored
  | .hNew cd => .init cd
  | .hUpdate cd data => .update cd data
  | .hDigest cs => .digest cs
  | .hHexdigest cs => .hexdigest cs
  | .hCopy cd cs => .copy cd cs

/-! ## The words of spec/opcode_table.json -/

/-- `H = frame[0] << 8 | frame[1]`: the header as the 16-bit number the table's match and mask are over (R71, R73). -/
def headerWord : Bytes → Nat
  | b0 :: b1 :: _ => b0.toNat * 256 + b1.toNat
  | _ => 0

/-- How many bytes a command's operands take where all of them are zero: a VAR operand is then four zero bytes,
a length of 0 (R72, R73, R82). -/
def zeroOperandBytes (opc : Nat) : Nat :=
  match opc with
  | 0x02 => 4
  | 0x08 => 4
  | 0x09 => 80
  | 0x0A => 16
  | 0x0B => 16
  | 0x0C => 8
  | 0x0D => 8
  | _ => 0

/-- Byte `j` on the stream of a string of 16-bit table words, bit 0 of `w` being bit 0 of the first word: the
header word is `frame[0] << 8 | frame[1]`, so its bits 15:8 come first (R71; notes/assumptions/11.md). -/
def tableByte (nbits w j : Nat) : Byte :=
  BitVec.ofNat 8 ((w % 2 ^ nbits) >>> (16 * (j / 2) + (if j % 2 = 0 then 8 else 0)))

/-- The whole frame of the instruction whose `nbits` table bits are `w` and whose other bits are 0. -/
def frameOfTableWord (nbits w : Nat) : Bytes :=
  (List.range (max (nbits / 8) (2 + zeroOperandBytes (tableByte nbits w 0).toNat))).map (tableByte nbits w)

/-- The instruction the decoder reads from a row of spec/opcode_table.json, in a block with `Config.nctx` slots. -/
def decodeTableWord (nbits w : Nat) : Option Instr :=
  (decodeFrame Config.nctx (frameOfTableWord nbits w)).toOption

end Sys2Proof
end

