-- ==== Sys2Proof/Machine/State.lean ====
section
/-! DEFINITION. The architectural state, the reasons a step can stop, and the state after reset (spec/10_state.md,
spec/20_memory.md R50, spec/70_reset_and_hazards.md R221). Plain data. -/

namespace Sys2Proof.Machine

/-- DigestState: four 32-bit words, the MD5 chaining value (R21). -/
structure DigestState where
  a : Word
  b : Word
  c : Word
  d : Word
  deriving DecidableEq, Repr

/-- An engine value `(S, N, B)` (R120): the chaining value, the 64-bit counter of message bits (R22), and the
block buffer, oldest byte first, whose length is BUFLEN (R23; notes/assumptions/5.md). -/
structure Engine where
  words : DigestState
  count : BitVec 64
  buf : Bytes
  deriving DecidableEq, Repr

/-- A context slot: its constructor is the status bit ST (R24). An IDLE slot's data fields are unspecified and
unobservable, and "a model may represent a slot as `IDLE | ACTIVE(engine value)`" (R25; notes/assumptions/2.md). -/
inductive Slot where
  | idle
  | active (e : Engine)
  deriving DecidableEq, Repr

/-- What HOST may do to the block: send a byte string as a frame, or reset it between commands (R220, R231). -/
inductive HostAct where
  | frame (f : Bytes)
  | reset
  deriving DecidableEq, Repr

/-- The architectural state (R20 to R34) and the two streams (R50 (3)). -/
structure State where
  /-- the context file `CTX[0 .. NCTX-1]`; its length is NCTX (R20; notes/assumptions/1.md) -/
  ctx : List Slot
  /-- HALT (R26; no step sets it: notes/assumptions/7.md) -/
  halt : Bool
  /-- the command stream: what HOST is still to do, the next first (R50, R70; notes/assumptions/3.md) -/
  commands : List HostAct
  /-- the response stream: every response frame, oldest first (R50, R78; notes/assumptions/3.md) -/
  responses : List Bytes
  deriving DecidableEq, Repr

/-- Why the machine would stop with a fault. There is no such reason: "An error is **reported, not trapped**" (R190).
Every error of the block is a next state with a one-byte response; nothing raises a fault
(notes/assumptions/8.md; safe). -/
inductive Fault where
  deriving DecidableEq, Repr

/-- Why a step has no meaning. -/
inductive Refusal where
  /-- Raised by `exec`'s arm of an instruction that has no meaning yet, under the table's mnemonic. Safe: nothing
  can be proved about what it does. -/
  | notModelled (mnemonic : String)
  /-- Raised by UPDATE where `COUNT + 8 * |data| >= 2^64`: "A model has no step for it" (R127). Safe. -/
  | counterOverflow
  deriving DecidableEq, Repr

/-- NCTX: the number of context slots (R20). -/
def State.nctx (s : State) : Nat := s.ctx.length

/-- The state after reset of a block with `n` slots: every slot IDLE, `HALT = 0` (R33). Both streams are empty
(notes/assumptions/3.md). -/
def State.resetOf (n : Nat) : State :=
  { ctx := List.replicate n .idle, halt := false, commands := [], responses := [] }

/-- The machine right after reset (R33), with `Config.nctx` slots (notes/assumptions/1.md). -/
def State.reset : State := State.resetOf Config.nctx

end Sys2Proof.Machine
end

