-- ==== Sys2Proof/Machine/Flags.lean ====
section
/-! DEFINITION. The status codes of the response frame (spec/60_exceptions.md R191, spec/30_encoding.md R78).
The block has no flags register; ST and HALT are its only status-like state (spec/10_state.md R29). -/

namespace Sys2Proof.Machine

/-- The outcome of a command: OK, or one of the four errors (R191). -/
inductive Status where
  | ok
  | illegal
  | seq
  | malformed
  | invariant
  deriving DecidableEq, Repr

/-- The status byte (R78, R191). -/
def Status.code : Status → Byte
  | .ok => 0x00
  | .illegal => 0x01
  | .seq => 0x02
  | .malformed => 0x03
  | .invariant => 0x04

/-- A response frame: the status byte, then the result bytes (R78). -/
def responseFrame (st : Status) (result : Bytes) : Bytes := st.code :: result

/-- The boolean of APR1VAL as a result byte (R78). -/
def boolByte (b : Bool) : Byte := if b then 0x01 else 0x00

end Sys2Proof.Machine
end

