-- ==== Sys2Proof/Machine/Ops.lean ====
section
/-! DEFINITION. The operations every command is made of: responding, raising an error, reading and writing a
context slot, the checks before a command acts, reset (spec/60_exceptions.md R190 to R196,
spec/70_reset_and_hazards.md R220). -/

namespace Sys2Proof.Machine

/-- What a command ends in: a next state, or a refusal. -/
abbrev Result := Host.Outcome State Fault Refusal

/-- The response stream gains one response frame (R31, R78). -/
def State.respond (s : State) (st : Status) (result : Bytes) : State :=
  { s with responses := s.responses ++ [responseFrame st result] }

/-- `respond(OK, bytes)`: the command ends with status OK and its result (spec/00_scope.md section 8). -/
def State.ok (s : State) (result : Bytes) : Result := .next (s.respond .ok result)

/-- `raise <Error>`: the command ends at once, the response is the error's status byte alone, and nothing else
changes; there is no trap, vector or handler, nothing is saved, and there is no return (R190, R192 to R195). -/
def State.raise (s : State) (st : Status) : Result := .next (s.respond st [])

/-- Reading slot `c` of the context file. Commands do it only after the slot number is known to be legal (R76);
outside the file the model reads IDLE. -/
def State.slot (s : State) (c : SlotNo) : Slot := s.ctx.getD c.val .idle

/-- Writing slot `c`; no other slot changes (R20, R59). -/
def State.setSlot (s : State) (c : SlotNo) (v : Slot) : State := { s with ctx := s.ctx.set c.val v }

/-- The checks that come before a command acts, in the order of R196: HALT, then whether it is a legal command
(notes/assumptions/14.md). -/
def State.command (s : State) (i : Instr) (body : Result) : Result :=
  if s.halt then s.raise .invariant
  else if i.wf s.nctx then body
  else s.raise .illegal

/-- `if CTX[c].ST != ACTIVE: raise SequencingError`, else go on with the slot's engine value (R193). -/
def State.withActive (s : State) (c : SlotNo) (body : Engine → Result) : Result :=
  match s.slot c with
  | .idle => s.raise .seq
  | .active e => body e

/-- Reset: every slot IDLE and HALT cleared, whatever the state (R33, R220). It answers no frame and leaves the
two streams alone (R231; notes/assumptions/4.md). -/
def State.resetBlock (s : State) : State :=
  { s with ctx := List.replicate s.nctx .idle, halt := false }

/-- The next thing HOST does, and the state with it taken off the command stream; none while no frame has arrived
(R70). -/
def State.fetch (s : State) : Option (HostAct × State) :=
  match s.commands with
  | [] => none
  | a :: rest => some (a, { s with commands := rest })

end Sys2Proof.Machine
end

