-- ==== Sys2Proof/Machine/Apr1Codec.lean ====
section
/-! DEFINITION. Apr1Codec, the apr1 base-64-like encoder, and the command A64ENC (spec/42_apr1_codec.md). -/

namespace Sys2Proof.Machine

/-- `AL[x]`: the 64-character alphabet `./0-9A-Za-z` (R140). -/
def a64Char (x : Nat) : Byte :=
  if x ≤ 11 then BitVec.ofNat 8 (0x2E + x)
  else if x ≤ 37 then BitVec.ofNat 8 (0x41 + (x - 12))
  else BitVec.ofNat 8 (0x61 + (x - 38))

/-- `to64(v, n)`: `n` characters, least significant 6 bits first (R141). -/
def to64 : Nat → Nat → Bytes
  | _, 0 => []
  | v, n + 1 => a64Char (v &&& 63) :: to64 (v >>> 6) n

/-- A three-byte group packed, the first byte in bits 23:16 (R142, spec/90_conflicts.md C2). -/
def packGroup (d : Bytes) (i j k : Nat) : Nat :=
  (d.getD i 0).toNat <<< 16 ||| (d.getD j 0).toNat <<< 8 ||| (d.getD k 0).toNat

/-- `A64`: five groups of four characters, then byte 11 alone as two (R143). A byte that `d` does not have reads
as 0; the rules use it only on 16 bytes (notes/assumptions/10.md). -/
def a64 (d : Bytes) : Bytes :=
  to64 (packGroup d 0 6 12) 4 ++ to64 (packGroup d 1 7 13) 4 ++ to64 (packGroup d 2 8 14) 4 ++
  to64 (packGroup d 3 9 15) 4 ++ to64 (packGroup d 4 10 5) 4 ++ to64 (d.getD 11 0).toNat 2

/-- A64ENC: the operand encoded; no state is read or written (R144). -/
def execA64enc (dg : Bytes) (s : State) : Result :=
  s.command (.a64enc dg) (s.ok (a64 dg))

end Sys2Proof.Machine
end

