-- ==== Sys2Proof/Machine/BlockTransform.lean ====
section
/-! DEFINITION. BlockTransform, the MD5 compression function, and the command XFORM (spec/40_block_transform.md). -/

namespace Sys2Proof.Machine

/-- `rol32(x, n)` for `1 <= n <= 31` (spec/00_scope.md section 7, R108). -/
def rol32 (x : Word) (n : Nat) : Word := x <<< n ||| x >>> (32 - n)

/-- The additive constants `K[0] .. K[63]` (R102). "The hardware holds the table; it never computes a sine." -/
def kTable : List Word :=
  [0xd76aa478, 0xe8c7b756, 0x242070db, 0xc1bdceee,
   0xf57c0faf, 0x4787c62a, 0xa8304613, 0xfd469501,
   0x698098d8, 0x8b44f7af, 0xffff5bb1, 0x895cd7be,
   0x6b901122, 0xfd987193, 0xa679438e, 0x49b40821] ++
  [0xf61e2562, 0xc040b340, 0x265e5a51, 0xe9b6c7aa,
   0xd62f105d, 0x02441453, 0xd8a1e681, 0xe7d3fbc8,
   0x21e1cde6, 0xc33707d6, 0xf4d50d87, 0x455a14ed,
   0xa9e3e905, 0xfcefa3f8, 0x676f02d9, 0x8d2a4c8a] ++
  [0xfffa3942, 0x8771f681, 0x6d9d6122, 0xfde5380c,
   0xa4beea44, 0x4bdecfa9, 0xf6bb4b60, 0xbebfbc70,
   0x289b7ec6, 0xeaa127fa, 0xd4ef3085, 0x04881d05,
   0xd9d4d039, 0xe6db99e5, 0x1fa27cf8, 0xc4ac5665] ++
  [0xf4292244, 0x432aff97, 0xab9423a7, 0xfc93a039,
   0x655b59c3, 0x8f0ccc92, 0xffeff47d, 0x85845dd1,
   0x6fa87e4f, 0xfe2ce6e0, 0xa3014314, 0x4e0811a1,
   0xf7537e82, 0xbd3af235, 0x2ad7d2bb, 0xeb86d391]

/-- `K[i]` (R102). -/
def kConst (i : Nat) : Word := kTable.getD i 0

/-- `F`, round 1 (R103). -/
def fnF (x y z : Word) : Word := (x &&& y) ||| (~~~x &&& z)

/-- `G`, round 2 (R103). -/
def fnG (x y z : Word) : Word := (x &&& z) ||| (y &&& ~~~z)

/-- `H`, round 3 (R103). -/
def fnH (x y z : Word) : Word := x ^^^ y ^^^ z

/-- `I`, round 4 (R103). -/
def fnI (x y z : Word) : Word := y ^^^ (x ||| ~~~z)

/-- `Fn_i`: the function used at operation `i` (R103). -/
def roundFn (i : Nat) : Word → Word → Word → Word :=
  if i < 16 then fnF else if i < 32 then fnG else if i < 48 then fnH else fnI

/-- `S[i]`: the rotation amount of operation `i` (R104). -/
def rotAmount (i : Nat) : Nat :=
  if i < 16 then [7, 12, 17, 22].getD (i % 4) 0
  else if i < 32 then [5, 9, 14, 20].getD (i % 4) 0
  else if i < 48 then [4, 11, 16, 23].getD (i % 4) 0
  else [6, 10, 15, 21].getD (i % 4) 0

/-- `g(i)`: the index of the block word used at operation `i` (R105). -/
def wordIndex (i : Nat) : Nat :=
  if i < 16 then i
  else if i < 32 then (5 * i + 1) % 16
  else if i < 48 then (3 * i + 5) % 16
  else (7 * i) % 16

/-- One operation, on the four working words (R106). -/
def btOp (blk : Bytes) (w : DigestState) (i : Nat) : DigestState :=
  let f := roundFn i w.b w.c w.d
  let t := w.a + f + wordLe blk (wordIndex i) + kConst i
  { a := w.d, b := w.b + rol32 t (rotAmount i), c := w.b, d := w.c }

/-- `BT`: the 64 operations in order, then the addition of the state it started from (R100, R107). -/
def bt (s : DigestState) (blk : Bytes) : DigestState :=
  let w := (List.range 64).foldl (btOp blk) s
  { a := s.a + w.a, b := s.b + w.b, c := s.c + w.c, d := s.d + w.d }

/-- A DigestState serialised: `le32(A) ++ le32(B) ++ le32(C) ++ le32(D)` (R52 (c), (d)). -/
def DigestState.bytes (s : DigestState) : Bytes := le32 s.a ++ le32 s.b ++ le32 s.c ++ le32 s.d

/-- The DigestState that 16 bytes serialise (R52 (d), R109). -/
def DigestState.ofBytes (b : Bytes) : DigestState :=
  { a := wordLe b 0, b := wordLe b 1, c := wordLe b 2, d := wordLe b 3 }

/-- XFORM: one BlockTransform on operands; no state is read or written (R109). -/
def execXform (state block : Bytes) (s : State) : Result :=
  s.command (.xform state block) (s.ok (bt (.ofBytes state) block).bytes)

end Sys2Proof.Machine
end

