-- ==== Sys2Proof/Machine/DigestEngine.lean ====
section
/-! DEFINITION. DigestEngine, streaming MD5, and the commands INIT, UPDATE, FINAL, COPY
(spec/41_digest_engine.md). -/

namespace Sys2Proof.Machine

/-- `EngInit()`: MD5's initial constants, counter 0, buffer empty (R120). -/
def engInit : Engine :=
  { words := { a := 0x67452301, b := 0xefcdab89, c := 0x98badcfe, d := 0x10325476 }, count := 0, buf := [] }

/-- `for j = 0 .. q - 1 in order: S <- BT(S, m[64j .. 64j + 63])` (R123, R125). -/
def btBlocks : Nat → DigestState → Bytes → DigestState
  | 0, s, _ => s
  | q + 1, s, m => btBlocks q (bt s (m.take 64)) (m.drop 64)

/-- `8 * |data|` as an amount of the bit counter (R22, R123). -/
def bitLength (data : Bytes) : BitVec 64 := BitVec.ofNat 64 (8 * data.length)

/-- `EngUpdate` (R123). The rules use it only where `N + 8 * |data| < 2^64`, where its addition does not wrap. -/
def engUpdate (e : Engine) (data : Bytes) : Engine :=
  let m := e.buf ++ data
  let q := m.length / 64
  { words := btBlocks q e.words m, count := e.count + bitLength data, buf := m.drop (64 * q) }

/-- UPDATE's byte loop, one data byte: it goes into the buffer, and a full buffer is consumed by BT (R122). -/
def feedByte (e : Engine) (x : Byte) : Engine :=
  let buf := e.buf ++ [x]
  if buf.length = 64 then { e with words := bt e.words buf, buf := [] } else { e with buf := buf }

/-- UPDATE as R122 writes it: the byte loop, then the counter. `engUpdate` is the same function on every engine
value (R123); UPDATE uses that form. -/
def engUpdateBytewise (e : Engine) (data : Bytes) : Engine :=
  let e' := data.foldl feedByte e
  { e' with count := e'.count + bitLength data }

/-- `(55 - n) mod 64`: the number of zero bytes in the padding (R125). -/
def padZeros (n : Nat) : Nat := (119 - n % 64) % 64

/-- `Pad(N, n)`: 0x80, zeros up to 56 modulo 64, then the 64-bit little-endian bit count (R125). -/
def pad (count : BitVec 64) (n : Nat) : Bytes := 0x80 :: (zeros (padZeros n) ++ le64 count)

/-- `EngFinal`: BT on the padded final blocks, and the state serialised as 16 bytes (R125). -/
def engFinal (e : Engine) : Bytes :=
  let m := e.buf ++ pad e.count e.buf.length
  (btBlocks (m.length / 64) e.words m).bytes

/-- `MD5(m)`: the digest of a whole message (R129). -/
def md5 (m : Bytes) : Bytes := engFinal (engUpdate engInit m)

/-- INIT: the slot becomes the initial engine, whatever it held (R121). -/
def execInit (cd : SlotNo) (s : State) : Result :=
  s.command (.init cd) ((s.setSlot cd (.active engInit)).ok [])

/-- UPDATE: EngUpdate on the slot's engine value; refused where the bit count would reach 2^64 (R122, R127). -/
def execUpdate (cd : SlotNo) (data : Bytes) (s : State) : Result :=
  s.command (.update cd data) <| s.withActive cd fun e =>
    if e.count.toNat + 8 * data.length < 2 ^ 64 then (s.setSlot cd (.active (engUpdate e data))).ok []
    else .refused .counterOverflow

/-- FINAL: the digest of the slot, which becomes IDLE (R124). -/
def execFinal (cd : SlotNo) (s : State) : Result :=
  s.command (.final cd) <| s.withActive cd fun e => (s.setSlot cd .idle).ok (engFinal e)

/-- COPY: the destination becomes an engine with the source's words, counter and buffer (R126). -/
def execCopy (cd cs : SlotNo) (s : State) : Result :=
  s.command (.copy cd cs) <| s.withActive cs fun e => (s.setSlot cd (.active e)).ok []

end Sys2Proof.Machine
end

