-- ==== Sys2Proof/Machine/Apr1Hasher.lean ====
section
/-! DEFINITION. Apr1Hasher, the apr1 controller, and the commands APR1ENC, APR1VAL (spec/43_apr1_hasher.md). -/

namespace Sys2Proof.Machine

/-- The magic string `$apr1$` (R4). -/
def apr1Magic : Bytes := [0x24, 0x61, 0x70, 0x72, 0x31, 0x24]

/-- The character `$`. -/
def dollar : Byte := 0x24

/-- `salt8`: the first `min(8, |salt|)` bytes, nothing else done to the salt (R150). -/
def salt8 (salt : Bytes) : Bytes := salt.take 8

/-- Step 1, the binary pass (R151). -/
def apr1Binary (password s8 : Bytes) : Bytes :=
  engFinal (engUpdate (engUpdate (engUpdate engInit password) s8) password)

/-- Step 2's first loop: `while pl > 0: e <- EngUpdate(e, binary[:min(pl, 16)]); pl <- pl - 16` (R152). The first
argument bounds the number of passes. Subtraction stops at 0, where the loop ends as it does at a negative `pl`
(notes/assumptions/12.md). -/
def feedBinary (binary : Bytes) : Nat → Nat → Engine → Engine
  | 0, _, e => e
  | fuel + 1, pl, e =>
    if pl = 0 then e else feedBinary binary fuel (pl - 16) (engUpdate e (binary.take (min pl 16)))

/-- Step 2's second loop: for each binary digit of `i`, least significant first, a zero byte if it is 1 and
`password[0]` if it is 0, until `i = 0` (R152). The first argument bounds the number of passes
(notes/assumptions/12.md). -/
def feedBits (password : Bytes) : Nat → Nat → Engine → Engine
  | 0, _, e => e
  | fuel + 1, i, e =>
    if i = 0 then e
    else feedBits password fuel (i >>> 1) (engUpdate e (if i % 2 = 1 then [0x00] else [password.getD 0 0]))

/-- The scratch engine of step 2 just before its EngFinal (R152). -/
def apr1PrimaryEngine (password s8 binary : Bytes) : Engine :=
  let n := password.length
  feedBits password n n
    (feedBinary binary n n (engUpdate (engUpdate (engUpdate engInit password) apr1Magic) s8))

/-- Step 2, the primary pass (R152). -/
def apr1Primary (password s8 binary : Bytes) : Bytes := engFinal (apr1PrimaryEngine password s8 binary)

/-- One round of step 3 (R153; modulus 7, spec/90_conflicts.md C1). -/
def apr1Round (password s8 digest : Bytes) (round : Nat) : Bytes :=
  let e := engUpdate engInit (if round % 2 = 1 then password else digest)
  let e := if round % 3 ≠ 0 then engUpdate e s8 else e
  let e := if round % 7 ≠ 0 then engUpdate e password else e
  engFinal (engUpdate e (if round % 2 = 1 then digest else password))

/-- Step 3: the rounds 0 to 999 in order (R153). -/
def apr1Rounds (password s8 digest : Bytes) : Bytes :=
  (List.range 1000).foldl (apr1Round password s8) digest

/-- The digest after round 999 (R151 to R153). -/
def apr1Digest (password salt : Bytes) : Bytes :=
  apr1Rounds password (salt8 salt)
    (apr1Primary password (salt8 salt) (apr1Binary password (salt8 salt)))

/-- `APR1(password, salt)`: `"$apr1$" ++ salt8 ++ "$" ++ A64(digest)` (R154, R155, R161). -/
def apr1 (password salt : Bytes) : Bytes :=
  apr1Magic ++ salt8 salt ++ [dollar] ++ a64 (apr1Digest password salt)

/-- `ParseStored(s)`: the salt between the second and third `$`; none is MALFORMED (R157). -/
def parseStored (stored : Bytes) : Option Bytes :=
  if stored.take 6 = apr1Magic then
    let tl := stored.drop 6
    if dollar ∈ tl then some (tl.takeWhile (· ≠ dollar)) else none
  else none

/-- `Validate(password, stored)`: exact comparison with the recomputed hash; none is MalformedStoredHash (R158). -/
def validate (password stored : Bytes) : Option Bool :=
  (parseStored stored).map fun salt => decide (apr1 password salt = stored)

/-- APR1ENC: the apr1 hash of the operands; no slot is read or written (R156). -/
def execApr1enc (password salt : Bytes) (s : State) : Result :=
  s.command (.apr1enc password salt) (s.ok (apr1 password salt))

/-- APR1VAL: the validation result as one byte, or MalformedStoredHash (R159). -/
def execApr1val (password stored : Bytes) (s : State) : Result :=
  s.command (.apr1val password stored) <|
    match validate password stored with
    | none => s.raise .malformed
    | some ok => s.ok [boolByte ok]

end Sys2Proof.Machine
end

