-- ==== Sys2Proof/Machine/HexCodec.lean ====
section
/-! DEFINITION. HexCodec, the one-shot MD5, and the commands HEXENC, MD5, FINALHEX (spec/44_md5_oneshot_hex.md). -/

namespace Sys2Proof.Machine

/-- The digit of a nibble: `0` to `9`, then `a` to `f` (R170). -/
def hexDigit (x : Fin 16) : Byte :=
  if x.val ≤ 9 then BitVec.ofNat 8 (0x30 + x.val) else BitVec.ofNat 8 (0x61 + (x.val - 10))

/-- `HEX`: two digits a byte, high nibble first (R170). -/
def hex (b : Bytes) : Bytes := b.flatMap fun x => [hexDigit (highNibble x), hexDigit (lowNibble x)]

/-- HEXENC: the operand in hex; no state is read or written (R171). -/
def execHexenc (dg : Bytes) (s : State) : Result :=
  s.command (.hexenc dg) (s.ok (hex dg))

/-- MD5: the digest of the operand, in hex; no slot is read or written (R172). -/
def execMd5 (data : Bytes) (s : State) : Result :=
  s.command (.md5 data) (s.ok (hex (md5 data)))

/-- FINALHEX: FINAL with the digest in hex (R173). -/
def execFinalhex (cd : SlotNo) (s : State) : Result :=
  s.command (.finalhex cd) <| s.withActive cd fun e => (s.setSlot cd .idle).ok (hex (engFinal e))

end Sys2Proof.Machine
end

