-- ==== Sys2Proof/Machine/HashHandle.lean ====
section
/-! DEFINITION. HashHandle, the non-destructive read-out and the attributes: DIGEST, HEXDIGEST, ATTR
(spec/45_hash_handle.md). -/

namespace Sys2Proof.Machine

/-- DIGEST: the digest of the slot's engine value; the slot is left as it is (R181). -/
def execDigest (cs : SlotNo) (s : State) : Result :=
  s.command (.digest cs) <| s.withActive cs fun e => s.ok (engFinal e)

/-- HEXDIGEST: DIGEST in hex (R182). -/
def execHexdigest (cs : SlotNo) (s : State) : Result :=
  s.command (.hexdigest cs) <| s.withActive cs fun e => s.ok (hex (engFinal e))

/-- The read-only constants as result bytes: DIGEST_SIZE = 16, BLOCK_SIZE = 64, NAME = "md5" (R27, R183). -/
def attrValue : AttrSel → Bytes
  | .digestSize => [0x10]
  | .blockSize => [0x40]
  | .name => [0x6d, 0x64, 0x35]

/-- ATTR: the constant selected; no state is read or written (R183). -/
def execAttr (sel : AttrSel) (s : State) : Result :=
  s.command (.attr sel) (s.ok (attrValue sel))

end Sys2Proof.Machine
end

