-- ==== Sys2Proof/Machine/Dispatch.lean ====
section
/-! DEFINITION. One arm per constructor of Instr: the meaning of each command (spec/30_encoding.md R73). -/

namespace Sys2Proof.Machine

def exec (i : Instr) (s : State) : Host.Outcome State Fault Refusal :=
  match i with
  | .init cd => Sys2Proof.Machine.execInit cd s
  | .update cd data => Sys2Proof.Machine.execUpdate cd data s
  | .final cd => Sys2Proof.Machine.execFinal cd s
  | .copy cd cs => Sys2Proof.Machine.execCopy cd cs s
  | .finalhex cd => Sys2Proof.Machine.execFinalhex cd s
  | .digest cs => Sys2Proof.Machine.execDigest cs s
  | .hexdigest cs => Sys2Proof.Machine.execHexdigest cs s
  | .md5 data => Sys2Proof.Machine.execMd5 data s
  | .xform state block => Sys2Proof.Machine.execXform state block s
  | .hexenc dg => Sys2Proof.Machine.execHexenc dg s
  | .a64enc dg => Sys2Proof.Machine.execA64enc dg s
  | .apr1enc password salt => Sys2Proof.Machine.execApr1enc password salt s
  | .apr1val password stored => Sys2Proof.Machine.execApr1val password stored s
  | .attr sel => Sys2Proof.Machine.execAttr sel s

end Sys2Proof.Machine
end

