-- ==== Sys2Proof/Machine/Serve.lean ====
section
/-! DEFINITION. What CORE does with one frame, and with one action of HOST (spec/60_exceptions.md R196,
spec/70_reset_and_hazards.md R220, R231). -/

namespace Sys2Proof.Machine

/-- One frame: HALT before the frame is looked at, then decoding, then the command (R195, R196). -/
def serveFrame (f : Bytes) (s : State) : Result :=
  if s.halt then s.raise .invariant
  else match decodeFrame s.nctx f with
    | .error _ => s.raise .illegal
    | .ok i => exec i s

/-- One action of HOST: a frame, or a reset (R231). -/
def serve (a : HostAct) (s : State) : Result :=
  match a with
  | .frame f => serveFrame f s
  | .reset => .next s.resetBlock

/-- One step: the next action of HOST, taken off the command stream and served whole (R5, R70). While there is
none, CORE waits and no state changes (R70). -/
def stepServe (s : State) : Result :=
  match s.fetch with
  | none => .next s
  | some (a, s') => serve a s'

/-- `s` with the frame of a table word next on the command stream. -/
def placeTableWord (s : State) (nbits w : Nat) : State :=
  { s with commands := .frame (frameOfTableWord nbits w) :: s.commands }

end Sys2Proof.Machine
end

