-- ==== Sys2Proof/Machine/Step.lean ====
section
/-! DEFINITION. The step function: one whole command, from a frame to its response (spec/00_scope.md R5). -/

namespace Sys2Proof.Machine

/-- One step of the block (R5, R70, R196, R220). -/
def step (s : State) : Host.Outcome State Fault Refusal := stepServe s

/-- `s` with the instruction whose `nbits` table bits are `w`, the others 0, as HOST's next frame
(notes/assumptions/3.md, 11.md). -/
def State.withFetchWord (s : State) (nbits w : Nat) : State := placeTableWord s nbits w

end Sys2Proof.Machine
end

