-- ==== Sys2Proof/Machine/Assembler.lean ====
section
/-! DEFINITION. The textual form of commands and pseudo-commands (spec/30_encoding.md R80, R81). Points of the text
that the spec leaves open (spaces, hex digits' case) are in notes/assumptions/13.md. -/

namespace Sys2Proof.Machine

/-- An operand as text: a slot, a byte string, or a name (R80). -/
inductive AsmOperand where
  | slot (c : SlotNo)
  | bytes (b : Bytes)
  | name (w : List Char)
  deriving DecidableEq, Repr

/-- Space or tab. -/
def isBlank (c : Char) : Bool := c == ' ' || c == '\t'

/-- A character of a mnemonic, a slot name or a selector name. -/
def isNameChar (c : Char) : Bool := c.isAlphanum || c == '_'

/-- The text with the blanks it begins with left out. -/
def skipBlanks (cs : List Char) : List Char := cs.dropWhile isBlank

/-- The value of a hex digit (R80). -/
def hexValue (c : Char) : Option (Fin 16) :=
  let n := c.toNat
  if 48 ≤ n ∧ n ≤ 57 then some (Fin.ofNat 16 (n - 48))
  else if 97 ≤ n ∧ n ≤ 102 then some (Fin.ofNat 16 (n - 87))
  else if 65 ≤ n ∧ n ≤ 70 then some (Fin.ofNat 16 (n - 55))
  else none

/-- An ASCII literal after its opening quote, up to its closing quote; no escapes (R80). DESIGN CHOICE
(notes/assumptions/13.md): a `;` inside the literal is a data byte; R80 does not say whether it starts a comment. -/
def quoted : List Char → Option (Bytes × List Char)
  | [] => none
  | c :: rest =>
    if c = '"' then some ([], rest)
    else if c.toNat < 128 then (quoted rest).map fun p => (BitVec.ofNat 8 c.toNat :: p.1, p.2)
    else none

/-- A hex literal after `x'`, up to its closing quote: two digits a byte, byte 0 first (R80). -/
def hexLiteral : List Char → Option (Bytes × List Char)
  | '\'' :: rest => some ([], rest)
  | h :: l :: rest =>
    match hexValue h, hexValue l, hexLiteral rest with
    | some hi, some lo, some (b, tl) => some (ofNibbles hi lo :: b, tl)
    | _, _, _ => none
  | _ => none

/-- `c0` to `c15` (R80). -/
def slotName (w : List Char) : Option SlotNo :=
  match String.ofList w with
  | "c0" => some 0 | "c1" => some 1 | "c2" => some 2 | "c3" => some 3
  | "c4" => some 4 | "c5" => some 5 | "c6" => some 6 | "c7" => some 7
  | "c8" => some 8 | "c9" => some 9 | "c10" => some 10 | "c11" => some 11
  | "c12" => some 12 | "c13" => some 13 | "c14" => some 14 | "c15" => some 15
  | _ => none

/-- The operand a text begins with, and the text after it (R80). -/
def asmOperand : List Char → Option (AsmOperand × List Char)
  | '"' :: rest => (quoted rest).map fun p => (.bytes p.1, p.2)
  | 'x' :: '\'' :: rest => (hexLiteral rest).map fun p => (.bytes p.1, p.2)
  | cs =>
    let w := cs.takeWhile isNameChar
    let rest := cs.dropWhile isNameChar
    match w, slotName w with
    | [], _ => none
    | _ :: _, some c => some (.slot c, rest)
    | _ :: _, none => some (.name w, rest)

/-- Nothing but blanks and a comment is left of the line (R80). A `;` starts a comment wherever the text stands outside
a literal, a blank before it or not (notes/assumptions/13.md). -/
def atLineEnd (cs : List Char) : Bool :=
  match skipBlanks cs with
  | [] => true
  | c :: _ => c == ';'

/-- The operands, separated by commas, to the end of the line (R80). The first argument bounds their number. -/
def asmOperands : Nat → List Char → Option (List AsmOperand)
  | 0, _ => none
  | fuel + 1, cs =>
    match asmOperand (skipBlanks cs) with
    | none => none
    | some (o, rest) =>
      if atLineEnd rest then some [o]
      else match skipBlanks rest with
        | ',' :: rest => (asmOperands fuel rest).map (o :: ·)
        | _ => none

/-- The selector names of ATTR (R80). -/
def selectorName (w : List Char) : Option AttrSel :=
  match String.ofList w with
  | "DIGEST_SIZE" => some .digestSize
  | "BLOCK_SIZE" => some .blockSize
  | "NAME" => some .name
  | _ => none

/-- The pseudo-command of a name and operands (R81). -/
def asmPseudo (m : String) (os : List AsmOperand) : Option Pseudo :=
  match m, os with
  | "MD5_INIT", [] => some .md5Init
  | "MD5_UPDATE", [.bytes data] => some (.md5Update data)
  | "MD5_FINAL", [] => some .md5Final
  | "MD5_ENCODE", [.bytes password, .bytes salt] => some (.md5Encode password salt)
  | "PASSWORD_VALIDATE", [.bytes password, .bytes stored] => some (.passwordValidate password stored)
  | "H_NEW", [.slot cd] => some (.hNew cd)
  | "H_UPDATE", [.slot cd, .bytes data] => some (.hUpdate cd data)
  | "H_DIGEST", [.slot cs] => some (.hDigest cs)
  | "H_HEXDIGEST", [.slot cs] => some (.hHexdigest cs)
  | "H_COPY", [.slot cd, .slot cs] => some (.hCopy cd cs)
  | _, _ => none

/-- The command of a mnemonic and operands (R80), or the one a pseudo-command expands to (R81). DESIGN CHOICE
(notes/assumptions/13.md): R80 does not say what happens to a literal of another length than `bytes16` or `bytes64`;
here it assembles, to a command that is not legal. -/
def asmCommand (m : String) (os : List AsmOperand) : Option Instr :=
  match m, os with
  | "INIT", [.slot cd] => some (.init cd)
  | "UPDATE", [.slot cd, .bytes data] => some (.update cd data)
  | "FINAL", [.slot cd] => some (.final cd)
  | "COPY", [.slot cd, .slot cs] => some (.copy cd cs)
  | "FINALHEX", [.slot cd] => some (.finalhex cd)
  | "DIGEST", [.slot cs] => some (.digest cs)
  | "HEXDIGEST", [.slot cs] => some (.hexdigest cs)
  | "MD5", [.bytes data] => some (.md5 data)
  | "XFORM", [.bytes state, .bytes block] => some (.xform state block)
  | "HEXENC", [.bytes dg] => some (.hexenc dg)
  | "A64ENC", [.bytes dg] => some (.a64enc dg)
  | "APR1ENC", [.bytes password, .bytes salt] => some (.apr1enc password salt)
  | "APR1VAL", [.bytes password, .bytes stored] => some (.apr1val password stored)
  | "ATTR", [.name w] => (selectorName w).map .attr
  | m, os => (asmPseudo m os).map Pseudo.expand

/-- One line: a command, a pseudo-command, or none on a blank or comment line; the outer Option is whether the line
is of the form R80 gives. -/
def assembleLine (line : List Char) : Option (Option Instr) :=
  if atLineEnd line then some none
  else
    let cs := skipBlanks line
    let m := cs.takeWhile isNameChar
    let rest := cs.dropWhile isNameChar
    if atLineEnd rest then (asmCommand (String.ofList m) []).map some
    else if (rest.head?.map isBlank) = some true then
      match asmOperands rest.length rest with
      | none => none
      | some os => (asmCommand (String.ofList m) os).map some
    else none

/-- A program: one command a line (R80). -/
def assemble : List (List Char) → Option (List Instr)
  | [] => some []
  | line :: rest =>
    match assembleLine line, assemble rest with
    | some (some i), some is => some (i :: is)
    | some none, some is => some is
    | _, _ => none

/-! ## Commands as text -/

/-- The name of a slot (R80). -/
def slotText (c : SlotNo) : List Char :=
  ["c0", "c1", "c2", "c3", "c4", "c5", "c6", "c7", "c8", "c9", "c10", "c11", "c12", "c13", "c14", "c15"].getD c.val ""
    |>.toList

/-- The character of a hex digit. -/
def hexChar (x : Fin 16) : Char := if x.val ≤ 9 then Char.ofNat (48 + x.val) else Char.ofNat (87 + x.val)

/-- A byte string as a hex literal (R80). -/
def bytesText (b : Bytes) : List Char :=
  ['x', '\''] ++ b.flatMap (fun x => [hexChar (highNibble x), hexChar (lowNibble x)]) ++ ['\'']

/-- The name of an ATTR selector (R80). -/
def selText : AttrSel → List Char
  | .digestSize => "DIGEST_SIZE".toList
  | .blockSize => "BLOCK_SIZE".toList
  | .name => "NAME".toList

/-- A line of one mnemonic and one operand. -/
def line1 (m : String) (o : List Char) : List Char := m.toList ++ ' ' :: o

/-- A line of one mnemonic and two operands. -/
def line2 (m : String) (o p : List Char) : List Char := m.toList ++ ' ' :: (o ++ ',' :: ' ' :: p)

/-- A command as text, its byte strings as hex literals (R80). -/
def instrText : Instr → List Char
  | .init cd => line1 "INIT" (slotText cd)
  | .update cd data => line2 "UPDATE" (slotText cd) (bytesText data)
  | .final cd => line1 "FINAL" (slotText cd)
  | .copy cd cs => line2 "COPY" (slotText cd) (slotText cs)
  | .finalhex cd => line1 "FINALHEX" (slotText cd)
  | .digest cs => line1 "DIGEST" (slotText cs)
  | .hexdigest cs => line1 "HEXDIGEST" (slotText cs)
  | .md5 data => line1 "MD5" (bytesText data)
  | .xform state block => line2 "XFORM" (bytesText state) (bytesText block)
  | .hexenc dg => line1 "HEXENC" (bytesText dg)
  | .a64enc dg => line1 "A64ENC" (bytesText dg)
  | .apr1enc password salt => line2 "APR1ENC" (bytesText password) (bytesText salt)
  | .apr1val password stored => line2 "APR1VAL" (bytesText password) (bytesText stored)
  | .attr sel => line1 "ATTR" (selText sel)

end Sys2Proof.Machine
end

