-- ==== Sys2Proof/Safety.lean ====
section
/-! DEFINITION. The terms claims use: reachable states, the invariant of the slots, and the message machine, which
holds the whole message of a slot where the block holds an engine value (spec/70_reset_and_hazards.md R231,
spec/41_digest_engine.md R128, R129). -/

namespace Sys2Proof.Machine

/-- Every byte of `data` fits the bit counter of a fresh engine (R127). -/
def FitsCounter (data : Bytes) : Prop := 8 * data.length < 2 ^ 64

/-- The engine value is what some data give from the initial engine (R128). -/
def Engine.OfData (e : Engine) : Prop := ∃ data : Bytes, FitsCounter data ∧ e = engUpdate engInit data

/-- What R128 says of a slot. -/
def Slot.Ok : Slot → Prop
  | .idle => True
  | .active e => e.OfData

/-- The invariant of the block: 1 to 16 slots (R4, R20), HALT clear (R26), every slot as R128 says. -/
structure Inv (s : State) : Prop where
  nctx_pos : 1 ≤ s.nctx
  nctx_le : s.nctx ≤ Config.maxNctx
  halt_clear : s.halt = false
  slots_ok : ∀ v ∈ s.ctx, v.Ok

/-- HOST does one more thing after all it has done: the command stream gains it at its end (R231). -/
def State.offer (s : State) (a : HostAct) : State := { s with commands := s.commands ++ [a] }

/-- The states a run of a block with `n` slots goes through: from reset, HOST acts and CORE steps (R231). -/
inductive Reachable (n : Nat) : State → Prop where
  | reset : Reachable n (State.resetOf n)
  | offer {s : State} (a : HostAct) : Reachable n s → Reachable n (s.offer a)
  | step {s t : State} : Reachable n s → Machine.step s = .next t → Reachable n t

/-! ## What a command names -/

/-- The slot a command reads, which must be ACTIVE (R191, R193). -/
def readsSlot : Instr → Option SlotNo
  | .update cd _ => some cd
  | .final cd => some cd
  | .finalhex cd => some cd
  | .digest cs => some cs
  | .hexdigest cs => some cs
  | .copy _ cs => some cs
  | .init _ => none
  | .md5 _ => none
  | .xform _ _ => none
  | .hexenc _ => none
  | .a64enc _ => none
  | .apr1enc _ _ => none
  | .apr1val _ _ => none
  | .attr _ => none

/-- The slot a command may change (R55, R121 to R126, R173). -/
def writesSlot : Instr → Option SlotNo
  | .init cd => some cd
  | .update cd _ => some cd
  | .final cd => some cd
  | .finalhex cd => some cd
  | .copy cd _ => some cd
  | .digest _ => none
  | .hexdigest _ => none
  | .md5 _ => none
  | .xform _ _ => none
  | .hexenc _ => none
  | .a64enc _ => none
  | .apr1enc _ _ => none
  | .apr1val _ _ => none
  | .attr _ => none

/-! ## The message machine -/

/-- A block that keeps, for each ACTIVE slot, all the data given to it (and to its COPY ancestors) since the INIT it
descends from (R128); none for an IDLE slot. -/
structure MsgState where
  ctx : List (Option Bytes)
  halt : Bool
  commands : List HostAct
  responses : List Bytes
  deriving DecidableEq, Repr

/-- The slot that holds the engine value of a message (R128). -/
def slotOfMessage : Option Bytes → Slot
  | none => .idle
  | some m => .active (engUpdate engInit m)

/-- The block's state for a state of the message machine. -/
def MsgState.concrete (m : MsgState) : State :=
  { ctx := m.ctx.map slotOfMessage, halt := m.halt, commands := m.commands, responses := m.responses }

/-- Every message fits the bit counter (R127). -/
def MsgState.Ok (m : MsgState) : Prop := ∀ v ∈ m.ctx, ∀ data, v = some data → FitsCounter data

/-- The message machine after reset (R33). -/
def MsgState.resetOf (n : Nat) : MsgState :=
  { ctx := List.replicate n none, halt := false, commands := [], responses := [] }

abbrev MsgResult := Host.Outcome MsgState Fault Refusal

/-- A response of the message machine, with nothing else changed. -/
def MsgState.answer (m : MsgState) (st : Status) (result : Bytes) : MsgState :=
  { m with responses := m.responses ++ [responseFrame st result] }

/-- Writing a slot of the message machine. -/
def MsgState.setSlot (m : MsgState) (c : SlotNo) (v : Option Bytes) : MsgState := { m with ctx := m.ctx.set c.val v }

/-- A command that needs an ACTIVE slot, on that slot's message; E_SEQ on an IDLE slot (R193). -/
def MsgState.withMessage (m : MsgState) (c : SlotNo) (body : Bytes → MsgResult) : MsgResult :=
  match m.ctx.getD c.val none with
  | none => .next (m.answer .seq [])
  | some data => body data

/-- What each command does, said of whole messages: a digest is `MD5` of all the data of the slot (R129), whatever
the chunks it came in (R123), and reading it does not disturb the slot (R184). -/
def msgCommand (i : Instr) (m : MsgState) : MsgResult :=
  match i with
  | .init cd => .next ((m.setSlot cd (some [])).answer .ok [])
  | .update cd data => m.withMessage cd fun old =>
      if 8 * (old ++ data).length < 2 ^ 64 then .next ((m.setSlot cd (some (old ++ data))).answer .ok [])
      else .refused .counterOverflow
  | .final cd => m.withMessage cd fun msg => .next ((m.setSlot cd none).answer .ok (md5 msg))
  | .copy cd cs => m.withMessage cs fun msg => .next ((m.setSlot cd (some msg)).answer .ok [])
  | .finalhex cd => m.withMessage cd fun msg => .next ((m.setSlot cd none).answer .ok (hex (md5 msg)))
  | .digest cs => m.withMessage cs fun msg => .next (m.answer .ok (md5 msg))
  | .hexdigest cs => m.withMessage cs fun msg => .next (m.answer .ok (hex (md5 msg)))
  | .md5 data => .next (m.answer .ok (hex (md5 data)))
  | .xform state block => .next (m.answer .ok (bt (.ofBytes state) block).bytes)
  | .hexenc dg => .next (m.answer .ok (hex dg))
  | .a64enc dg => .next (m.answer .ok (a64 dg))
  | .apr1enc password salt => .next (m.answer .ok (apr1 password salt))
  | .apr1val password stored =>
      match validate password stored with
      | none => .next (m.answer .malformed [])
      | some ok => .next (m.answer .ok [boolByte ok])
  | .attr sel => .next (m.answer .ok (attrValue sel))

/-- One frame: HALT, decoding, the command (R196). -/
def msgFrame (f : Bytes) (m : MsgState) : MsgResult :=
  if m.halt then .next (m.answer .invariant [])
  else match decodeFrame m.ctx.length f with
    | .error _ => .next (m.answer .illegal [])
    | .ok i => msgCommand i m

/-- One step of the message machine. -/
def msgStep (m : MsgState) : MsgResult :=
  match m.commands with
  | [] => .next m
  | .reset :: rest =>
      .next { m with ctx := List.replicate m.ctx.length none, halt := false, commands := rest }
  | .frame f :: rest => msgFrame f { m with commands := rest }

/-- An outcome of the message machine as an outcome of the block. -/
def concreteOutcome : MsgResult → Result
  | .next m => .next m.concrete
  | .fault r => .fault r
  | .refused r => .refused r

end Sys2Proof.Machine
end

