-- ==== Sys2Proof/Certificates/Slice0/Obligations.lean ====
section
/-! DEFINITION. The statements about the model, each from the numbered rules of spec/. They state and never prove. -/

open Sys2Proof Sys2Proof.Machine

/-! ## Words the statements share -/

/-- `t` is `s` after one command that answered the response frame `r`: the frame of every command. HALT, NCTX and the
command stream are as before, the response stream gained `r`, and no slot but the one named in `changed` changed
(R20, R31, R55, R59). What the named slot holds is stated beside it. -/
structure Sys2Proof.Answers (s t : State) (changed : Option SlotNo) (r : Bytes) : Prop where
  halt : t.halt = s.halt
  nctx : t.nctx = s.nctx
  commands : t.commands = s.commands
  responses : t.responses = s.responses ++ [r]
  slots : ∀ k : Nat, (∀ c, changed = some c → k ≠ c.val) → t.ctx[k]? = s.ctx[k]?

/-- The command answers a next state in which only the response stream changed, by `r`. -/
def Sys2Proof.OnlyAnswers (i : Instr) (s : State) (r : Bytes) : Prop :=
  ∃ t, exec i s = .next t ∧ Answers s t none r

/-- The command answers a next state in which slot `c` holds `v` and only that slot and the response stream
changed. -/
def Sys2Proof.AnswersAndSets (i : Instr) (s : State) (c : SlotNo) (v : Slot) (r : Bytes) : Prop :=
  ∃ t, exec i s = .next t ∧ t.ctx[c.val]? = some v ∧ Answers s t (some c) r

/-- What every command's rule lists under Errors: E_INVARIANT while HALT is set, E_ILLEGAL where the command is not
`legal`, each with nothing else changed; otherwise what `rest` says. Where the bytes of a command that is not legal are
the frame of another, legal one (XFORM, APR1ENC, APR1VAL), that `exec` answers E_ILLEGAL to the former is the model's
choice (notes/assumptions/14.md). -/
def Sys2Proof.ChecksFirst (i : Instr) (s : State) (legal rest : Prop) : Prop :=
  (s.halt = true → OnlyAnswers i s [0x04]) ∧
  (s.halt = false → ¬ legal → OnlyAnswers i s [0x01]) ∧
  (s.halt = false → legal → rest)

/-- SequencingError where slot `c` is IDLE, with nothing else changed; otherwise what `rest` says of the engine value
the slot holds. -/
def Sys2Proof.NeedsActive (i : Instr) (s : State) (c : SlotNo) (rest : Engine → Prop) : Prop :=
  (s.ctx[c.val]? = some .idle → OnlyAnswers i s [0x02]) ∧
  (∀ e, s.ctx[c.val]? = some (.active e) → rest e)

/-- A frame that does not decode (R74). -/
def Sys2Proof.IsIllegal (nctx : Nat) (f : Bytes) : Prop := ∃ why, decodeFrame nctx f = .error why

/-! ## Reset, and what a step does -/

/-- R33: after reset every slot is IDLE, HALT is 0 and the constants of R27 hold their values, for every NCTX. -/
def Obligations.ResetLeavesSlotsIdleAndHaltClear : Prop :=
  ∀ n : Nat, (State.resetOf n).nctx = n ∧ (∀ k, k < n → (State.resetOf n).ctx[k]? = some .idle) ∧
    (State.resetOf n).halt = false ∧
    attrValue .digestSize = [0x10] ∧ attrValue .blockSize = [0x40] ∧ attrValue .name = [0x6d, 0x64, 0x35]

/-- A reset event leaves the reset state of R33, from every state. That it answers no frame and leaves the streams
alone is the model's choice (notes/assumptions/4.md). -/
def Obligations.ResetEventRestoresTheResetState : Prop :=
  ∀ (s : State) (more : List HostAct), s.commands = .reset :: more →
    ∃ t, step s = .next t ∧ t.nctx = s.nctx ∧ (∀ k, k < s.nctx → t.ctx[k]? = some .idle) ∧ t.halt = false ∧
      t.commands = more ∧ t.responses = s.responses

/-- While no frame has arrived, "CORE waits, no state changes" (R70). -/
def Obligations.WaitsWhileNoFrameHasArrived : Prop :=
  ∀ s : State, s.commands = [] → step s = .next s

/-- A step on a frame that decodes is `exec` of the decoded command, on the state with the frame taken off the
command stream (R5, R74). That the streams stand in State is the model's choice (notes/assumptions/3.md). -/
def Obligations.StepRunsTheDecodedCommand : Prop :=
  ∀ (s : State) (f : Bytes) (more : List HostAct) (i : Instr),
    s.commands = .frame f :: more → decodeFrame s.nctx f = .ok i →
    step s = exec i { s with commands := more }

/-- R196: one frame reports at most one error, in the order HALT, decode, slot status, stored hash. -/
def Obligations.ErrorsAreCheckedInOrder : Prop :=
  ∀ (s : State) (f : Bytes) (more : List HostAct), s.commands = .frame f :: more →
    (s.halt = true → ∃ t, step s = .next t ∧ Answers { s with commands := more } t none [0x04]) ∧
    (s.halt = false → IsIllegal s.nctx f →
      ∃ t, step s = .next t ∧ Answers { s with commands := more } t none [0x01]) ∧
    (∀ i c, s.halt = false → decodeFrame s.nctx f = .ok i → readsSlot i = some c → s.ctx[c.val]? = some .idle →
      ∃ t, step s = .next t ∧ Answers { s with commands := more } t none [0x02]) ∧
    (∀ password stored, s.halt = false → decodeFrame s.nctx f = .ok (.apr1val password stored) →
      parseStored stored = none →
      ∃ t, step s = .next t ∧ Answers { s with commands := more } t none [0x03])

/-- HALT is 0 after reset; while it is 1 every frame is answered with E_INVARIANT and changes nothing; a reset clears
it (R26). That no step sets it is what R26 and R195 infer and the model keeps (notes/assumptions/7.md); that a step with
no frame pending leaves it is the model's choice of such a step (notes/assumptions/3.md). That HALT is 0 in every
reachable state is part of ReachableStatesMeetTheInvariant. -/
def Obligations.HaltIsStickyAndNeverSet : Prop :=
  (∀ n, (State.resetOf n).halt = false) ∧
  (∀ (s : State) (f : Bytes) (more : List HostAct), s.halt = true → s.commands = .frame f :: more →
    ∃ t, step s = .next t ∧ Answers { s with commands := more } t none [0x04]) ∧
  (∀ (s t : State) (more : List HostAct), s.commands = .reset :: more → step s = .next t → t.halt = false) ∧
  (∀ s : State, s.halt = true → s.commands = [] → ∃ t, step s = .next t ∧ t.halt = true) ∧
  (∀ s t : State, step s = .next t → s.halt = false → t.halt = false)

/-! ## Encoding -/

/-- Decoding the frame of a legal command gives the command back, every operand at every value (R71 to R74). -/
def Obligations.DecodeOfEncodeIsTheCommand : Prop :=
  ∀ (nctx : Nat) (i : Instr), i.wf nctx = true → decodeFrame nctx (encode i) = .ok i

/-- A frame that decodes is the frame of the command it decodes to, and that command is legal: no two byte strings
are the same command, and nothing reserved is one (R74, R77). -/
def Obligations.EncodeOfDecodeIsTheFrame : Prop :=
  ∀ (nctx : Nat) (f : Bytes) (i : Instr), decodeFrame nctx f = .ok i → encode i = f ∧ i.wf nctx = true

/-- One frame a command, written out from R71 to R73, decodes to the command it stands for. -/
def Obligations.FramesWrittenOutDecodeAsTheSpecSays : Prop :=
  decodeFrame 4 [0x01, 0x30] = .ok (.init 3) ∧
  decodeFrame 4 [0x02, 0x20, 0x03, 0x00, 0x00, 0x00, 0x66, 0x6f, 0x6f] = .ok (.update 2 [0x66, 0x6f, 0x6f]) ∧
  decodeFrame 4 [0x03, 0x10] = .ok (.final 1) ∧
  decodeFrame 4 [0x04, 0x10] = .ok (.copy 1 0) ∧
  decodeFrame 4 [0x05, 0x00] = .ok (.finalhex 0) ∧
  decodeFrame 4 [0x06, 0x03] = .ok (.digest 3) ∧
  decodeFrame 4 [0x07, 0x02] = .ok (.hexdigest 2) ∧
  decodeFrame 4 [0x0c, 0x00, 0x02, 0x00, 0x00, 0x00, 0x61, 0x62, 0x02, 0x00, 0x00, 0x00, 0x78, 0x79] =
    .ok (.apr1enc [0x61, 0x62] [0x78, 0x79]) ∧
  decodeFrame 4 [0x0e, 0x02] = .ok (.attr .name)

/-- `(match, mask)` of a command's row in R73. -/
def Sys2Proof.rowOf : Instr → Nat × Nat
  | .init _ => (0x0100, 0xFF0F)
  | .update _ _ => (0x0200, 0xFF0F)
  | .final _ => (0x0300, 0xFF0F)
  | .copy _ _ => (0x0400, 0xFF00)
  | .finalhex _ => (0x0500, 0xFF0F)
  | .digest _ => (0x0600, 0xFFF0)
  | .hexdigest _ => (0x0700, 0xFFF0)
  | .md5 _ => (0x0800, 0xFFFF)
  | .xform _ _ => (0x0900, 0xFFFF)
  | .hexenc _ => (0x0A00, 0xFFFF)
  | .a64enc _ => (0x0B00, 0xFFFF)
  | .apr1enc _ _ => (0x0C00, 0xFFFF)
  | .apr1val _ _ => (0x0D00, 0xFFFF)
  | .attr _ => (0x0E00, 0xFFFC)

/-- The header of a frame that decodes selects the row of R73 of the command it decodes to. -/
def Obligations.HeaderSelectsTheRowOfTheCommand : Prop :=
  ∀ (nctx : Nat) (f : Bytes) (i : Instr), decodeFrame nctx f = .ok i →
    headerWord f &&& (rowOf i).2 = (rowOf i).1

/-- R82: the length of a legal frame follows from its opcode and its length fields. -/
def Obligations.FrameLengthFollowsFromTheOperands : Prop :=
  ∀ (nctx : Nat) (f : Bytes) (i : Instr), decodeFrame nctx f = .ok i →
    f.length = match i with
      | .init _ | .final _ | .copy _ _ | .finalhex _ | .digest _ | .hexdigest _ | .attr _ => 2
      | .update _ data | .md5 data => 2 + 4 + data.length
      | .xform _ _ => 82
      | .hexenc _ | .a64enc _ => 18
      | .apr1enc x y | .apr1val x y => 2 + 4 + x.length + 4 + y.length

/-- R77: what is illegal, and that it is answered with E_ILLEGAL and no state change; every other byte string is one
of the fourteen commands. The opcode is a byte `o`, the second header byte `b` holds CD and CS. -/
def Obligations.ReservedAndIllFormedFramesAreIllegal : Prop :=
  ∀ nctx : Nat,
    (∀ f : Bytes, f.length < 2 → IsIllegal nctx f) ∧
    (∀ (o b : Byte) (body : Bytes), o = 0x00 ∨ 0x0F ≤ o → IsIllegal nctx (o :: b :: body)) ∧
    (∀ (o b : Byte) (body : Bytes), o ∈ [0x01, 0x02, 0x03, 0x05] → lowNibble b ≠ 0 ∨ nctx ≤ (highNibble b).val →
      IsIllegal nctx (o :: b :: body)) ∧
    (∀ (b : Byte) (body : Bytes), nctx ≤ (highNibble b).val ∨ nctx ≤ (lowNibble b).val →
      IsIllegal nctx (0x04 :: b :: body)) ∧
    (∀ (o b : Byte) (body : Bytes), o ∈ [0x06, 0x07] → highNibble b ≠ 0 ∨ nctx ≤ (lowNibble b).val →
      IsIllegal nctx (o :: b :: body)) ∧
    (∀ (o b : Byte) (body : Bytes), 0x08 ≤ o → o ≤ 0x0D → b ≠ 0x00 → IsIllegal nctx (o :: b :: body)) ∧
    (∀ (b : Byte) (body : Bytes), highNibble b ≠ 0 ∨ 3 ≤ (lowNibble b).val → IsIllegal nctx (0x0E :: b :: body)) ∧
    (∀ (o b : Byte) (n : Word) (data : Bytes), o ∈ [0x02, 0x08, 0x0C, 0x0D] → data.length < n.toNat →
      IsIllegal nctx (o :: b :: (le32 n ++ data))) ∧
    (∀ (i : Instr) (k : Nat), i.wf nctx = true → k < (encode i).length → IsIllegal nctx ((encode i).take k)) ∧
    (∀ (i : Instr) (x : Byte) (more : Bytes), i.wf nctx = true → IsIllegal nctx (encode i ++ x :: more)) ∧
    (∀ f : Bytes, (∃ i, i.wf nctx = true ∧ f = encode i) ∨ IsIllegal nctx f) ∧
    (∀ (s : State) (f : Bytes) (more : List HostAct), s.nctx = nctx → s.halt = false →
      s.commands = .frame f :: more → IsIllegal nctx f →
      ∃ t, step s = .next t ∧ t.ctx = s.ctx ∧ Answers { s with commands := more } t none [0x01])

/-- R81: each pseudo-command expands to exactly one command; the legacy triple names slot 0. -/
def Obligations.PseudoCommandsExpandToOneCommand : Prop :=
  ∀ (cd cs : SlotNo) (x y : Bytes),
    asmCommand "MD5_INIT" [] = some (.init 0) ∧
    asmCommand "MD5_UPDATE" [.bytes x] = some (.update 0 x) ∧
    asmCommand "MD5_FINAL" [] = some (.finalhex 0) ∧
    asmCommand "MD5_ENCODE" [.bytes x, .bytes y] = some (.apr1enc x y) ∧
    asmCommand "PASSWORD_VALIDATE" [.bytes x, .bytes y] = some (.apr1val x y) ∧
    asmCommand "H_NEW" [.slot cd] = some (.init cd) ∧
    asmCommand "H_UPDATE" [.slot cd, .bytes x] = some (.update cd x) ∧
    asmCommand "H_DIGEST" [.slot cs] = some (.digest cs) ∧
    asmCommand "H_HEXDIGEST" [.slot cs] = some (.hexdigest cs) ∧
    asmCommand "H_COPY" [.slot cd, .slot cs] = some (.copy cd cs)

/-- The three examples of R80. -/
def Obligations.AssemblerExamplesAssemble : Prop :=
  (assembleLine "UPDATE c2, \"foo\"".toList).map (Option.map encode) =
    some (some [0x02, 0x20, 0x03, 0x00, 0x00, 0x00, 0x66, 0x6f, 0x6f]) ∧
  (assembleLine "COPY c1, c0".toList).map (Option.map encode) = some (some [0x04, 0x10]) ∧
  (assembleLine "APR1ENC \"foo\", \"mYJd83wW\"".toList).map (Option.map encode) =
    some (some ([0x0c, 0x00, 0x03, 0x00, 0x00, 0x00, 0x66, 0x6f, 0x6f, 0x08, 0x00, 0x00, 0x00] ++
      [0x6d, 0x59, 0x4a, 0x64, 0x38, 0x33, 0x77, 0x57]))

/-- A command written as text in the form of R80 assembles to that command. It ranges over commands that are not legal
too: that the assembler accepts literals of another length than `bytes16` or `bytes64`, operands beyond LENMAX and every
slot c0 to c15, and the blanks, hex digits and separator of the text, are the model's choice
(notes/assumptions/13.md). -/
def Obligations.AssemblingTheTextGivesTheCommand : Prop :=
  ∀ i : Instr, assembleLine (instrText i) = some (some i)

/-! ## BlockTransform -/

/-- `rol32(x, n)` moves bit `k` of `x` to bit `(k + n) mod 32`, for `1 <= n <= 31` (R108). -/
def Obligations.RotationMovesEachBit : Prop :=
  ∀ (x : Word) (n k : Nat), 1 ≤ n → n ≤ 31 → k < 32 →
    (rol32 x n).getLsbD ((k + n) % 32) = x.getLsbD k

/-- The word index of each operation, as R105 writes it out. -/
def Sys2Proof.wordOrder : List Nat :=
  [0, 1, 2, 3, 4, 5, 6, 7, 8, 9, 10, 11, 12, 13, 14, 15] ++
  [1, 6, 11, 0, 5, 10, 15, 4, 9, 14, 3, 8, 13, 2, 7, 12] ++
  [5, 8, 11, 14, 1, 4, 7, 10, 13, 0, 3, 6, 9, 12, 15, 2] ++
  [0, 7, 14, 5, 12, 3, 10, 1, 8, 15, 6, 13, 4, 11, 2, 9]

/-- The rotation amount of each operation: the four of a round repeated four times (R104). -/
def Sys2Proof.rotations : List Nat :=
  [[7, 12, 17, 22], [5, 9, 14, 20], [4, 11, 16, 23], [6, 10, 15, 21]].flatMap fun r => r ++ r ++ r ++ r

/-- One operation of R106, said of its round `r`, its word `x`, its constant `k` and its rotation `n`. -/
def Sys2Proof.operation (r : Nat) (x k : Word) (n : Nat) (w : DigestState) : DigestState :=
  let f := match r with
    | 0 => (w.b &&& w.c) ||| (~~~w.b &&& w.d)
    | 1 => (w.b &&& w.d) ||| (w.c &&& ~~~w.d)
    | 2 => w.b ^^^ w.c ^^^ w.d
    | _ => w.c ^^^ (w.b ||| ~~~w.d)
  { a := w.d, b := w.b + (w.a + f + x + k).rotateLeft n, c := w.b, d := w.c }

/-- R103 to R107 (which the spec marks as supplied from general knowledge): BT is 64 operations in order, operation
`i` in round `i / 16` with the word, constant and rotation of its index, and then the addition of the input state. -/
def Obligations.BtIsFourRoundsOfSixteenOperations : Prop :=
  ∀ (s : DigestState) (blk : Bytes), blk.length = 64 →
    let w := (List.range 64).foldl (fun w i =>
      operation (i / 16) (wordLe blk (wordOrder.getD i 0)) (kTable.getD i 0) (rotations.getD i 0) w) s
    bt s blk = { a := s.a + w.a, b := s.b + w.b, c := s.c + w.c, d := s.d + w.d }

/-- R52: words, the bit count and the digest are little-endian, and a digest state is what its 16 bytes serialise. -/
def Obligations.SerialisationIsLittleEndian : Prop :=
  (∀ (w : Word) (k : Nat), k < 4 → (le32 w)[k]? = some (BitVec.ofNat 8 (w.toNat / 2 ^ (8 * k)))) ∧
  (∀ (n : BitVec 64) (k : Nat), k < 8 → (le64 n)[k]? = some (BitVec.ofNat 8 (n.toNat / 2 ^ (8 * k)))) ∧
  (∀ (b : Bytes) (k : Nat), 4 * k + 4 ≤ b.length →
    b[4 * k]?.map (·.toNat) = some ((wordLe b k).toNat % 256) ∧
    b[4 * k + 1]?.map (·.toNat) = some ((wordLe b k).toNat / 256 % 256) ∧
    b[4 * k + 2]?.map (·.toNat) = some ((wordLe b k).toNat / 65536 % 256) ∧
    b[4 * k + 3]?.map (·.toNat) = some ((wordLe b k).toNat / 16777216 % 256)) ∧
  (∀ s : DigestState, s.bytes.length = 16 ∧ DigestState.ofBytes s.bytes = s) ∧
  (∀ b : Bytes, b.length = 16 → (DigestState.ofBytes b).bytes = b)

/-- XFORM answers BT of its operands and touches nothing (R109). That `exec` answers E_ILLEGAL to operands of other
lengths also where they have 80 bytes together, which are then the frame of another XFORM, is the model's choice
(notes/assumptions/14.md). -/
def Obligations.XformAnswersTheBlockTransform : Prop :=
  ∀ (s : State) (state block : Bytes),
    encode (.xform state block) = [0x09, 0x00] ++ state ++ block ∧
    (∀ (b : Byte) (body : Bytes), b ≠ 0x00 ∨ body.length ≠ 80 → IsIllegal s.nctx (0x09 :: b :: body)) ∧
    ChecksFirst (.xform state block) s (state.length = 16 ∧ block.length = 64)
      (let r := bt { a := wordLe state 0, b := wordLe state 1, c := wordLe state 2, d := wordLe state 3 } block
       OnlyAnswers (.xform state block) s (0x00 :: (le32 r.a ++ le32 r.b ++ le32 r.c ++ le32 r.d)))

/-! ## DigestEngine -/

/-- R121: INIT makes the slot ACTIVE with the initial engine value, whatever it held; nothing else changes. -/
def Obligations.InitMakesTheInitialEngine : Prop :=
  ∀ (s : State) (cd : SlotNo),
    encode (.init cd) = [0x01, BitVec.ofNat 8 (16 * cd.val)] ∧
    ChecksFirst (.init cd) s (cd.val < s.nctx)
      (AnswersAndSets (.init cd) s cd
        (.active { words := { a := 0x67452301, b := 0xefcdab89, c := 0x98badcfe, d := 0x10325476 }
                   count := 0, buf := [] }) [0x00])

/-- R122: UPDATE feeds its data into the buffer byte by byte, BT consuming each full buffer, and adds the bits to
the counter; nothing else changes. The buffer holds at most 63 bytes, as in every reachable state (R128). -/
def Obligations.UpdateFeedsTheDataByteByByte : Prop :=
  ∀ (s : State) (cd : SlotNo) (data : Bytes),
    encode (.update cd data) = [0x02, BitVec.ofNat 8 (16 * cd.val)] ++ le32 (BitVec.ofNat 32 data.length) ++ data ∧
    ChecksFirst (.update cd data) s (cd.val < s.nctx ∧ data.length ≤ 2 ^ 32 - 1)
      (NeedsActive (.update cd data) s cd fun e =>
        e.buf.length ≤ 63 → e.count.toNat + 8 * data.length < 2 ^ 64 →
        let fed := data.foldl (fun (st : DigestState × Bytes) x =>
          if st.2.length = 63 then (bt st.1 (st.2 ++ [x]), []) else (st.1, st.2 ++ [x])) (e.words, e.buf)
        ∃ count : BitVec 64, count.toNat = e.count.toNat + 8 * data.length ∧
          AnswersAndSets (.update cd data) s cd (.active { words := fed.1, count := count, buf := fed.2 }) [0x00])

/-- R127: an UPDATE that would take the counter to 2^64 has no step, and no other command is ever refused. -/
def Obligations.OnlyCounterOverflowIsRefused : Prop :=
  (∀ (s : State) (cd : SlotNo) (data : Bytes) (e : Engine),
    s.halt = false → s.ctx[cd.val]? = some (.active e) → data.length ≤ 2 ^ 32 - 1 →
    2 ^ 64 ≤ e.count.toNat + 8 * data.length →
    exec (.update cd data) s = .refused .counterOverflow) ∧
  (∀ (i : Instr) (s : State) (why : Refusal), exec i s = .refused why →
    ∃ cd data e, i = .update cd data ∧ s.ctx[cd.val]? = some (.active e) ∧
      2 ^ 64 ≤ e.count.toNat + 8 * data.length ∧ why = .counterOverflow)

/-- Blocks of 64 bytes consumed in order, the rest dropped: `for j = 0 .. q - 1: S <- BT(S, m[64j .. 64j + 63])`. -/
def Sys2Proof.overBlocks (s : DigestState) (m : Bytes) : DigestState :=
  (List.range (m.length / 64)).foldl (fun s j => bt s ((m.drop (64 * j)).take 64)) s

/-- `EngUpdate` as R123 defines it, on every engine value within the counter limit. -/
def Obligations.EngUpdateConsumesWholeBlocks : Prop :=
  ∀ (e : Engine) (data : Bytes), e.count.toNat + 8 * data.length < 2 ^ 64 →
    let m := e.buf ++ data
    (engUpdate e data).words = overBlocks e.words m ∧
    (engUpdate e data).count.toNat = e.count.toNat + 8 * data.length ∧
    (engUpdate e data).buf = m.drop (64 * (m.length / 64)) ∧
    (engUpdate e data).buf.length ≤ 63

/-- The byte loop of R122 and the block loop of R123 are one function on engine values. Below the counter limit this
is what R123 derives; beyond it, where the rules give no meaning, it rests on the model's choice that both add to the
counter modulo 2^64 (notes/assumptions/10.md). -/
def Obligations.ByteLoopEqualsBlockLoop : Prop :=
  ∀ (e : Engine) (data : Bytes), e.buf.length ≤ 63 → engUpdateBytewise e data = engUpdate e data

/-- Chunk invariance (R123): on engine values, and of two UPDATE commands against one with the data joined. The
clause on engine values is R123's below the counter limit; beyond it, it rests on the model's choice that the counter
wraps there (notes/assumptions/10.md). -/
def Obligations.ChunksMakeNoDifference : Prop :=
  (∀ (e : Engine) (a b : Bytes), engUpdate (engUpdate e a) b = engUpdate e (a ++ b)) ∧
  (∀ (s : State) (cd : SlotNo) (a b : Bytes) (e : Engine),
    s.halt = false → s.ctx[cd.val]? = some (.active e) → (a ++ b).length ≤ 2 ^ 32 - 1 →
    e.count.toNat + 8 * (a ++ b).length < 2 ^ 64 →
    ∃ s1 s2 t, exec (.update cd a) s = .next s1 ∧ exec (.update cd b) s1 = .next s2 ∧
      exec (.update cd (a ++ b)) s = .next t ∧ s2.ctx = t.ctx)

/-- R125: the padding, and finalisation: the padded message is one or two blocks, and the digest is the final state
serialised. -/
def Obligations.FinalisationPadsToWholeBlocks : Prop :=
  ∀ e : Engine, e.buf.length ≤ 63 →
    let z := if e.buf.length ≤ 55 then 55 - e.buf.length else 119 - e.buf.length
    let m := e.buf ++ ([0x80] ++ List.replicate z 0x00 ++ le64 e.count)
    let r := overBlocks e.words m
    m.length = (if e.buf.length ≤ 55 then 64 else 128) ∧
    engFinal e = le32 r.a ++ le32 r.b ++ le32 r.c ++ le32 r.d ∧ (engFinal e).length = 16

/-- R124: FINAL answers the digest of the slot and leaves it IDLE; nothing else changes. -/
def Obligations.FinalAnswersTheDigestAndIdles : Prop :=
  ∀ (s : State) (cd : SlotNo),
    encode (.final cd) = [0x03, BitVec.ofNat 8 (16 * cd.val)] ∧
    ChecksFirst (.final cd) s (cd.val < s.nctx)
      (NeedsActive (.final cd) s cd fun e =>
        (engFinal e).length = 16 ∧ AnswersAndSets (.final cd) s cd .idle (0x00 :: engFinal e))

/-- R126: COPY makes the destination equal to the ACTIVE source; the source, and with an IDLE source the destination,
stays as it was. -/
def Obligations.CopyMakesAnEqualSlot : Prop :=
  ∀ (s : State) (cd cs : SlotNo),
    encode (.copy cd cs) = [0x04, BitVec.ofNat 8 (16 * cd.val + cs.val)] ∧
    ChecksFirst (.copy cd cs) s (cd.val < s.nctx ∧ cs.val < s.nctx)
      (NeedsActive (.copy cd cs) s cs fun e =>
        ∃ t, exec (.copy cd cs) s = .next t ∧ t.ctx[cd.val]? = some (.active e) ∧
          t.ctx[cs.val]? = some (.active e) ∧ Answers s t (some cd) [0x00])

/-- R129: MD5 of a message is BT over the blocks of the padded message, from the initial constants, and it is the
digest of any chunks that join to the message. The clause on chunks is R129's below the counter limit; beyond it, it
rests on the model's choice that the counter wraps there (notes/assumptions/10.md). -/
def Obligations.Md5IsTheDigestOfThePaddedMessage : Prop :=
  (∀ m : Bytes, 8 * m.length < 2 ^ 64 →
    let z := (55 + 64 * m.length - m.length) % 64
    let p := m ++ [0x80] ++ List.replicate z 0x00 ++ le64 (BitVec.ofNat 64 (8 * m.length))
    let r := overBlocks { a := 0x67452301, b := 0xefcdab89, c := 0x98badcfe, d := 0x10325476 } p
    p.length % 64 = 0 ∧ md5 m = le32 r.a ++ le32 r.b ++ le32 r.c ++ le32 r.d) ∧
  (∀ chunks : List Bytes, engFinal (chunks.foldl engUpdate engInit) = md5 chunks.flatten)

/-- R128, of an engine value that data give: the buffer is short, the counter is a multiple of 8 that says how long
the buffer is, the words are BT over the whole blocks of the data, and the buffer is the rest. -/
def Obligations.SlotHoldsTheUnconsumedTail : Prop :=
  ∀ (e : Engine) (data : Bytes), FitsCounter data → e = engUpdate engInit data →
    e.buf.length ≤ 63 ∧ e.count.toNat % 8 = 0 ∧ e.buf.length = e.count.toNat / 8 % 64 ∧
    e.words = overBlocks { a := 0x67452301, b := 0xefcdab89, c := 0x98badcfe, d := 0x10325476 }
      (data.take (64 * (e.count.toNat / 512))) ∧
    e.buf = data.drop (64 * (e.count.toNat / 512))

/-! ## Hex, one-shot MD5, HashHandle -/

/-- R170: two lowercase digits a byte, high nibble first, in order. -/
def Obligations.HexWritesHighNibbleFirst : Prop :=
  ∀ b : Bytes, (hex b).length = 2 * b.length ∧
    ∀ (k : Nat) (x : Byte), b[k]? = some x →
      (hex b)[2 * k]? = some (BitVec.ofNat 8 (if x.toNat / 16 ≤ 9 then 0x30 + x.toNat / 16 else 0x61 + (x.toNat / 16 - 10))) ∧
      (hex b)[2 * k + 1]? = some (BitVec.ofNat 8 (if x.toNat % 16 ≤ 9 then 0x30 + x.toNat % 16 else 0x61 + (x.toNat % 16 - 10)))

/-- `val` of R174: the value of a hex digit. -/
def Sys2Proof.hexVal (c : Byte) : Nat := if c.toNat ≤ 0x39 then c.toNat - 0x30 else c.toNat - 0x61 + 10

/-- R174: reading the digits back gives the bytes, so HEX is injective. -/
def Obligations.HexCanBeReadBack : Prop :=
  (∀ (b : Bytes) (k : Nat) (x : Byte), b[k]? = some x →
    x.toNat = 16 * hexVal ((hex b).getD (2 * k) 0) + hexVal ((hex b).getD (2 * k + 1) 0)) ∧
  (∀ b b' : Bytes, hex b = hex b' → b = b')

/-- R171: HEXENC answers its operand in hex and touches nothing. -/
def Obligations.HexencAnswersHex : Prop :=
  ∀ (s : State) (dg : Bytes),
    encode (.hexenc dg) = [0x0a, 0x00] ++ dg ∧
    (∀ (b : Byte) (body : Bytes), b ≠ 0x00 ∨ body.length ≠ 16 → IsIllegal s.nctx (0x0a :: b :: body)) ∧
    ChecksFirst (.hexenc dg) s (dg.length = 16)
      ((hex dg).length = 32 ∧ OnlyAnswers (.hexenc dg) s (0x00 :: hex dg))

/-- R172: MD5 answers the digest of its operand in hex and touches nothing. -/
def Obligations.Md5CommandAnswersTheHexDigest : Prop :=
  ∀ (s : State) (data : Bytes),
    encode (.md5 data) = [0x08, 0x00] ++ le32 (BitVec.ofNat 32 data.length) ++ data ∧
    ChecksFirst (.md5 data) s (data.length ≤ 2 ^ 32 - 1)
      ((hex (md5 data)).length = 32 ∧ OnlyAnswers (.md5 data) s (0x00 :: hex (md5 data)))

/-- R173: FINALHEX is FINAL with the digest in hex. -/
def Obligations.FinalhexAnswersTheHexDigestAndIdles : Prop :=
  ∀ (s : State) (cd : SlotNo),
    encode (.finalhex cd) = [0x05, BitVec.ofNat 8 (16 * cd.val)] ∧
    ChecksFirst (.finalhex cd) s (cd.val < s.nctx)
      (NeedsActive (.finalhex cd) s cd fun e =>
        (hex (engFinal e)).length = 32 ∧ AnswersAndSets (.finalhex cd) s cd .idle (0x00 :: hex (engFinal e)))

/-- R181, R182: DIGEST and HEXDIGEST answer the digest of the slot and change nothing. -/
def Obligations.DigestAndHexdigestDoNotDisturb : Prop :=
  ∀ (s : State) (cs : SlotNo),
    encode (.digest cs) = [0x06, BitVec.ofNat 8 cs.val] ∧ encode (.hexdigest cs) = [0x07, BitVec.ofNat 8 cs.val] ∧
    ChecksFirst (.digest cs) s (cs.val < s.nctx)
      (NeedsActive (.digest cs) s cs fun e => OnlyAnswers (.digest cs) s (0x00 :: engFinal e)) ∧
    ChecksFirst (.hexdigest cs) s (cs.val < s.nctx)
      (NeedsActive (.hexdigest cs) s cs fun e => OnlyAnswers (.hexdigest cs) s (0x00 :: hex (engFinal e)))

/-- R183: ATTR answers the constant selected, whatever the slots hold, and touches nothing. -/
def Obligations.AttrAnswersTheConstants : Prop :=
  ∀ (s : State) (sel : AttrSel),
    encode (.attr sel) = [0x0e, match sel with | .digestSize => 0x00 | .blockSize => 0x01 | .name => 0x02] ∧
    (∀ (b : Byte) (body : Bytes), highNibble b ≠ 0 ∨ 3 ≤ (lowNibble b).val ∨ body ≠ [] →
      IsIllegal s.nctx (0x0e :: b :: body)) ∧
    ChecksFirst (.attr sel) s True
      (OnlyAnswers (.attr sel) s (match sel with
        | .digestSize => [0x00, 0x10]
        | .blockSize => [0x00, 0x40]
        | .name => [0x00, 0x6d, 0x64, 0x35]))

/-- R184 (a): a digest read between two updates is that of the data so far, and does not disturb the one read after
them. -/
def Obligations.ReadingADigestDoesNotDisturbTheHandle : Prop :=
  ∀ (s : State) (c : SlotNo) (a b : Bytes),
    s.halt = false → c.val < s.nctx → a.length ≤ 2 ^ 32 - 1 → b.length ≤ 2 ^ 32 - 1 →
    ∃ s1 s2 s3 s4 s5, exec (.init c) s = .next s1 ∧ exec (.update c a) s1 = .next s2 ∧
      exec (.hexdigest c) s2 = .next s3 ∧ exec (.update c b) s3 = .next s4 ∧ exec (.hexdigest c) s4 = .next s5 ∧
      s5.responses = s.responses ++
        [[0x00], [0x00], 0x00 :: hex (md5 a), [0x00], 0x00 :: hex (md5 (a ++ b))]

/-- R184 (b): after a copy, data given to the one handle do not affect the digest of the other. -/
def Obligations.CopiesAreIndependent : Prop :=
  ∀ (s : State) (c d : SlotNo) (x : Bytes) (e : Engine),
    s.halt = false → c ≠ d → d.val < s.nctx → s.ctx[c.val]? = some (.active e) → x.length ≤ 2 ^ 32 - 1 →
    e.count.toNat + 8 * x.length < 2 ^ 64 →
    ∃ s1 s2 s3 s4, exec (.copy d c) s = .next s1 ∧ exec (.update c x) s1 = .next s2 ∧
      exec (.hexdigest d) s2 = .next s3 ∧ exec (.hexdigest c) s3 = .next s4 ∧
      s4.responses = s.responses ++
        [[0x00], [0x00], 0x00 :: hex (engFinal e), 0x00 :: hex (engFinal (engUpdate e x))]

/-! ## Apr1Codec -/

/-- The alphabet of R140, character by character. -/
def Sys2Proof.alphabet : List Char := "./0123456789ABCDEFGHIJKLMNOPQRSTUVWXYZabcdefghijklmnopqrstuvwxyz".toList

/-- R140: the 64 characters of the alphabet, in order. -/
def Obligations.AlphabetIsDotSlashDigitsLetters : Prop :=
  alphabet.length = 64 ∧ ∀ x, x < 64 → (alphabet[x]?).map (fun c => BitVec.ofNat 8 c.toNat) = some (a64Char x)

/-- The three digest bytes of each four-character group, in the order of R142. -/
def Sys2Proof.groups : List (Nat × Nat × Nat) := [(0, 6, 12), (1, 7, 13), (2, 8, 14), (3, 9, 15), (4, 10, 5)]

/-- R141, R142: `to64` writes the least significant six bits first; character `4g + j` of A64 (R143) is six bits of
group `g`, least significant first, the group's first byte highest; the last two characters are byte 11. -/
def Obligations.A64PlacesEachSixBits : Prop :=
  (∀ v n : Nat, (to64 v n).length = n ∧ ∀ j, j < n → (to64 v n)[j]? = some (a64Char (v / 64 ^ j % 64))) ∧
  ∀ d : Bytes, d.length = 16 →
    (a64 d).length = 22 ∧
    (∀ (g j x y z : Nat), groups[g]? = some (x, y, z) → j < 4 →
      (a64 d)[4 * g + j]? = some (a64Char
        (((d.getD x 0).toNat * 65536 + (d.getD y 0).toNat * 256 + (d.getD z 0).toNat) / 64 ^ j % 64))) ∧
    (∀ j, j < 2 → (a64 d)[20 + j]? = some (a64Char ((d.getD 11 0).toNat / 64 ^ j % 64)))

/-- A64 is injective on 16-byte strings, and every character it gives is of the alphabet (the consequences R143
draws). -/
def Obligations.A64IsInjective : Prop :=
  (∀ d d' : Bytes, d.length = 16 → d'.length = 16 → a64 d = a64 d' → d = d') ∧
  (∀ (d : Bytes) (c : Byte), d.length = 16 → c ∈ a64 d → ∃ x, x < 64 ∧ c = a64Char x)

/-- R144: A64ENC answers the 22 characters of its operand and touches nothing. -/
def Obligations.A64encAnswersTheEncoding : Prop :=
  ∀ (s : State) (dg : Bytes),
    encode (.a64enc dg) = [0x0b, 0x00] ++ dg ∧
    (∀ (b : Byte) (body : Bytes), b ≠ 0x00 ∨ body.length ≠ 16 → IsIllegal s.nctx (0x0b :: b :: body)) ∧
    ChecksFirst (.a64enc dg) s (dg.length = 16)
      ((a64 dg).length = 22 ∧ OnlyAnswers (.a64enc dg) s (0x00 :: a64 dg))

/-! ## Apr1Hasher -/

/-- The message of one round of step 3, from the digest before it (R153). -/
def Sys2Proof.roundMessage (password s8 digest : Bytes) (round : Nat) : Bytes :=
  (if round % 2 = 1 then password else digest) ++ (if round % 3 = 0 then [] else s8) ++
  (if round % 7 = 0 then [] else password) ++ (if round % 2 = 1 then digest else password)

/-- A round of step 3 is MD5 of a message whose shape depends only on the round modulo 42 (R153). -/
def Obligations.RoundDependsOnRoundModulo42 : Prop :=
  ∀ (password s8 digest : Bytes) (round : Nat),
    apr1Round password s8 digest round = md5 (roundMessage password s8 digest round) ∧
    apr1Round password s8 digest round = apr1Round password s8 digest (round % 42)

/-- The message of step 2: the password, the magic string, the salt, as many bytes of `binary` repeated as the
password has, and one byte for each binary digit of its length, least significant first (R152, R155). -/
def Sys2Proof.primaryMessage (password s8 binary : Bytes) : Bytes :=
  password ++ apr1Magic ++ s8 ++
  (List.range password.length).map (fun k => binary.getD (k % 16) 0) ++
  (Nat.digits 2 password.length).map (fun digit => if digit = 1 then 0x00 else password.getD 0 0)

/-- APR1 with whole messages, as R155 writes it (a form the spec derives from R151 to R154). -/
def Obligations.Apr1EqualsItsWholeMessageForm : Prop :=
  ∀ password salt : Bytes,
    let s8 := salt.take 8
    let binary := md5 (password ++ s8 ++ password)
    let start := md5 (primaryMessage password s8 binary)
    let digest := (List.range 1000).foldl (fun d round => md5 (roundMessage password s8 d round)) start
    apr1 password salt = [0x24, 0x61, 0x70, 0x72, 0x31, 0x24] ++ s8 ++ [0x24] ++ a64 digest

/-- R161: the layout of the apr1 string; its last 22 bytes are A64 of the 16-byte digest after round 999. -/
def Obligations.Apr1StringHasItsLayout : Prop :=
  ∀ password salt : Bytes,
    (apr1 password salt).length = 29 + min 8 salt.length ∧
    (apr1 password salt).take 6 = [0x24, 0x61, 0x70, 0x72, 0x31, 0x24] ∧
    ((apr1 password salt).drop 6).take (min 8 salt.length) = salt.take 8 ∧
    (apr1 password salt)[6 + min 8 salt.length]? = some 0x24 ∧
    (apr1Digest password salt).length = 16 ∧
    (apr1 password salt).drop (7 + min 8 salt.length) = a64 (apr1Digest password salt)

/-- APR1ENC answers the apr1 string of its operands, 29 to 37 bytes, and touches nothing (R156). That `exec` answers
E_ILLEGAL to every operand beyond LENMAX, which no frame carries, is the model's choice (notes/assumptions/14.md). -/
def Obligations.Apr1encAnswersTheApr1String : Prop :=
  ∀ (s : State) (password salt : Bytes),
    encode (.apr1enc password salt) = [0x0c, 0x00] ++ (le32 (BitVec.ofNat 32 password.length) ++ password) ++
      (le32 (BitVec.ofNat 32 salt.length) ++ salt) ∧
    ChecksFirst (.apr1enc password salt) s (password.length ≤ 2 ^ 32 - 1 ∧ salt.length ≤ 2 ^ 32 - 1)
      ((apr1 password salt).length = 29 + min 8 salt.length ∧
        OnlyAnswers (.apr1enc password salt) s (0x00 :: apr1 password salt))

/-- APR1VAL (R157, R159). A stored string parses when it is `$apr1$`, a salt without `$`, a third `$`, and anything;
then the answer is whether the recomputed string is exactly the stored one. Otherwise MalformedStoredHash, with no
boolean. That `exec` answers E_ILLEGAL to every operand beyond LENMAX, which no frame carries, is the model's choice
(notes/assumptions/14.md). -/
def Obligations.Apr1valComparesOrReportsMalformed : Prop :=
  ∀ (s : State) (password stored : Bytes),
    encode (.apr1val password stored) = [0x0d, 0x00] ++ (le32 (BitVec.ofNat 32 password.length) ++ password) ++
      (le32 (BitVec.ofNat 32 stored.length) ++ stored) ∧
    ChecksFirst (.apr1val password stored) s (password.length ≤ 2 ^ 32 - 1 ∧ stored.length ≤ 2 ^ 32 - 1)
      ((∀ salt hash : Bytes, (0x24 : Byte) ∉ salt →
          stored = [0x24, 0x61, 0x70, 0x72, 0x31, 0x24] ++ salt ++ [0x24] ++ hash →
          OnlyAnswers (.apr1val password stored) s [0x00, if apr1 password salt = stored then 0x01 else 0x00]) ∧
       ((∀ salt hash : Bytes, (0x24 : Byte) ∉ salt →
          stored ≠ [0x24, 0x61, 0x70, 0x72, 0x31, 0x24] ++ salt ++ [0x24] ++ hash) →
          OnlyAnswers (.apr1val password stored) s [0x03]))

/-- The consequences R158 draws: the string of a password and a salt whose first eight bytes hold no `$` validates; a
stored salt longer than eight bytes never does. -/
def Obligations.OwnHashValidatesAndLongSaltsDoNot : Prop :=
  (∀ password salt : Bytes, (0x24 : Byte) ∉ salt.take 8 → validate password (apr1 password salt) = some true) ∧
  (∀ password salt hash : Bytes, (0x24 : Byte) ∉ salt → 8 < salt.length →
    validate password ([0x24, 0x61, 0x70, 0x72, 0x31, 0x24] ++ salt ++ [0x24] ++ hash) = some false)

/-! ## All commands -/

/-- A command changes only the slot its rule names (R20); it answers exactly one response (R31); HALT, NCTX and the
command stream are as before. -/
def Obligations.CommandChangesOnlyTheSlotItNames : Prop :=
  ∀ (i : Instr) (s t : State), exec i s = .next t → ∃ r, Answers s t (writesSlot i) r

/-- Every answer is a status byte and a result; an error has an empty result and leaves everything but the response
stream as it was (R78, R190). -/
def Obligations.ErrorsChangeNothing : Prop :=
  ∀ (i : Instr) (s t : State), exec i s = .next t →
    ∃ (st : Status) (result : Bytes), t.responses = s.responses ++ [st.code :: result] ∧
      (st ≠ .ok → result = [] ∧ t = { s with responses := s.responses ++ [[st.code]] })

/-- How many result bytes a command that completes answers (R31, R73). -/
def Sys2Proof.resultLength : Instr → Nat
  | .init _ | .update _ _ | .copy _ _ => 0
  | .final _ | .digest _ | .xform _ _ => 16
  | .finalhex _ | .hexdigest _ | .md5 _ | .hexenc _ => 32
  | .a64enc _ => 22
  | .apr1enc _ salt => 6 + min 8 salt.length + 1 + 22
  | .apr1val _ _ => 1
  | .attr .name => 3
  | .attr _ => 1

/-- Every response has the size R31 gives: the status byte alone for an error, and the command's number of result
bytes with status OK. -/
def Obligations.ResponsesHaveTheirSizes : Prop :=
  ∀ (i : Instr) (s t : State), exec i s = .next t →
    ∃ r, t.responses = s.responses ++ [r] ∧
      (r ∈ [[0x01], [0x02], [0x03], [0x04]] ∨ (r.head? = some 0x00 ∧ r.length = 1 + resultLength i))

/-- R193: SequencingError exactly where a legal command reads an IDLE slot, and nothing else changes. -/
def Obligations.IdleSlotRaisesSequencingError : Prop :=
  ∀ (i : Instr) (s : State), s.halt = false → i.wf s.nctx = true →
    (OnlyAnswers i s [0x02] ↔ ∃ c, readsSlot i = some c ∧ s.ctx[c.val]? = some .idle)

/-- The response to a command depends on HALT, NCTX and the slot it reads, and on nothing else, and so does what it
writes: HOSTs that use different slots do not affect each other (R59, R201). -/
def Obligations.CommandDependsOnlyOnTheSlotItReads : Prop :=
  ∀ (i : Instr) (s s' t : State), s.halt = s'.halt → s.nctx = s'.nctx →
    (∀ c, readsSlot i = some c → s.ctx[c.val]? = s'.ctx[c.val]?) → exec i s = .next t →
    ∃ t' r, exec i s' = .next t' ∧ t.responses = s.responses ++ [r] ∧ t'.responses = s'.responses ++ [r] ∧
      (∀ c, writesSlot i = some c → t.ctx[c.val]? = s.ctx[c.val]? ∧ t'.ctx[c.val]? = s'.ctx[c.val]? ∨
        t.ctx[c.val]? = t'.ctx[c.val]?)

/-- Commands on different slots commute in their effect on each slot (R60). -/
def Obligations.CommandsOnDifferentSlotsCommute : Prop :=
  ∀ (i j : Instr) (s s1 s2 : State),
    (∀ c, writesSlot i = some c → writesSlot j ≠ some c ∧ readsSlot j ≠ some c) →
    (∀ c, writesSlot j = some c → readsSlot i ≠ some c) →
    exec i s = .next s1 → exec j s1 = .next s2 →
    ∃ t1 t2, exec j s = .next t1 ∧ exec i t1 = .next t2 ∧ t2.ctx = s2.ctx

/-! ## The whole machine -/

/-- The invariant holds after reset, for every NCTX from 1 to 16. -/
def Obligations.ResetMeetsTheInvariant : Prop :=
  ∀ n : Nat, 1 ≤ n → n ≤ 16 → Inv (State.resetOf n)

/-- Every step keeps the invariant: NCTX, HALT clear, and of every slot what R128 says. -/
def Obligations.StepKeepsTheInvariant : Prop :=
  ∀ s t : State, Inv s → step s = .next t → Inv t

/-- R128: in every state reachable from reset, every ACTIVE slot's buffer is short and its counter, a multiple of 8,
says how long it is; the slot holds the engine value of some data. -/
def Obligations.ReachableStatesMeetTheInvariant : Prop :=
  ∀ (n : Nat) (s : State), 1 ≤ n → n ≤ 16 → Reachable n s →
    Inv s ∧ s.nctx = n ∧
    ∀ e : Engine, Slot.active e ∈ s.ctx →
      e.buf.length ≤ 63 ∧ e.count.toNat % 8 = 0 ∧ e.buf.length = e.count.toNat / 8 % 64

/-- The block answers every frame as the machine does that keeps each slot's whole message and takes MD5 of it: step
for step, with the same responses. -/
def Obligations.BlockSimulatesTheMessageMachine : Prop :=
  (∀ n, (MsgState.resetOf n).concrete = State.resetOf n ∧ (MsgState.resetOf n).Ok) ∧
  (∀ m : MsgState, m.Ok → step m.concrete = concreteOutcome (msgStep m)) ∧
  (∀ m m' : MsgState, m.Ok → msgStep m = .next m' → m'.Ok)
end

