-- ==== Sys2Proof/Laws/Engine.lean ====
section
/-! SUPPORT. Lemmas about the pure functions of the units: byte order, blocks, padding, codecs. -/

namespace Sys2Proof.Machine

/-! ## Byte order -/

@[simp] theorem le32_length (w : Word) : (le32 w).length = 4 := rfl
@[simp] theorem le64_length (n : BitVec 64) : (le64 n).length = 8 := rfl
@[simp] theorem zeros_length (n : Nat) : (zeros n).length = n := by simp [zeros]
@[simp] theorem DigestState.bytes_length (s : DigestState) : s.bytes.length = 16 := rfl

/-- The length field reads back as the word it was written from. -/
theorem ofLe32_le32 (w : Word) :
    ofLe32 (w.extractLsb' 0 8) (w.extractLsb' 8 8) (w.extractLsb' 16 8) (w.extractLsb' 24 8) = w := by
  unfold ofLe32
  ext k hk
  simp only [BitVec.getElem_or, BitVec.getElem_shiftLeft, BitVec.getElem_setWidth, BitVec.getLsbD_extractLsb']
  rcases (by omega : k < 8 ∨ (8 ≤ k ∧ k < 16) ∨ (16 ≤ k ∧ k < 24) ∨ 24 ≤ k) with h | h | h | h
  · simp [h, show k < 16 by omega, show k < 24 by omega, BitVec.getLsbD_eq_getElem hk]
  · simp [show ¬ k < 8 by omega, show k < 16 by omega, show k < 24 by omega, show k - 8 < 8 by omega,
      show 8 + (k - 8) = k by omega, BitVec.getLsbD_eq_getElem hk]
  · simp [show ¬ k < 8 by omega, show ¬ k < 16 by omega, show k < 24 by omega, show ¬ k - 8 < 8 by omega,
      show k - 16 < 8 by omega, show 16 + (k - 16) = k by omega, BitVec.getLsbD_eq_getElem hk]
  · simp [show ¬ k < 8 by omega, show ¬ k < 16 by omega, show ¬ k < 24 by omega, show ¬ k - 8 < 8 by omega,
      show ¬ k - 16 < 8 by omega, show k - 24 < 8 by omega, show 24 + (k - 24) = k by omega, BitVec.getLsbD_eq_getElem hk]

@[simp] theorem highNibble_ofNibbles (hi lo : Fin 16) : highNibble (ofNibbles hi lo) = hi := by
  apply Fin.ext
  have h1 := hi.isLt
  have h2 := lo.isLt
  simp only [highNibble, ofNibbles, BitVec.toNat_ofNat]
  omega

@[simp] theorem lowNibble_ofNibbles (hi lo : Fin 16) : lowNibble (ofNibbles hi lo) = lo := by
  apply Fin.ext
  have h1 := hi.isLt
  have h2 := lo.isLt
  simp only [lowNibble, ofNibbles, BitVec.toNat_ofNat]
  omega

@[simp] theorem ofNibbles_nibbles (b : Byte) : ofNibbles (highNibble b) (lowNibble b) = b := by
  apply BitVec.eq_of_toNat_eq
  have h := b.isLt
  simp only [highNibble, lowNibble, ofNibbles, BitVec.toNat_ofNat]
  omega

/-! ## Blocks -/

/-- Blocks beyond the `q` asked for play no part. -/
theorem btBlocks_append (q : Nat) (s : DigestState) (m n : Bytes) (h : 64 * q ≤ m.length) :
    btBlocks q s (m ++ n) = btBlocks q s m := by
  induction q generalizing s m with
  | zero => rfl
  | succ q ih =>
    simp only [btBlocks]
    rw [List.take_append_of_le_length (by omega), List.drop_append_of_le_length (by omega)]
    exact ih _ _ (by simp; omega)

/-- The first `p` blocks, then the `q` after them. -/
theorem btBlocks_add (p q : Nat) (s : DigestState) (m : Bytes) :
    btBlocks (p + q) s m = btBlocks q (btBlocks p s m) (m.drop (64 * p)) := by
  induction p generalizing s m with
  | zero => simp [btBlocks]
  | succ p ih =>
    rw [show p + 1 + q = (p + q) + 1 by omega]
    simp only [btBlocks, ih, List.drop_drop]
    congr 2
    omega

@[simp] theorem bitLength_append (a b : Bytes) : bitLength (a ++ b) = bitLength a + bitLength b := by
  simp only [bitLength, List.length_append, Nat.mul_add, BitVec.ofNat_add]

@[simp] theorem engInit_buf : engInit.buf = [] := rfl
@[simp] theorem engInit_count : engInit.count = 0 := rfl

@[simp] theorem engUpdate_count (e : Engine) (data : Bytes) :
    (engUpdate e data).count = e.count + bitLength data := rfl

/-- After an update the buffer is what does not fill a block (R123). -/
theorem engUpdate_buf_length (e : Engine) (data : Bytes) :
    (engUpdate e data).buf.length = (e.buf.length + data.length) % 64 := by
  simp only [engUpdate, List.length_drop, List.length_append]
  omega

/-- Within the limit of R127 the counter does not wrap. -/
theorem engUpdate_count_toNat (e : Engine) (data : Bytes) (h : e.count.toNat + 8 * data.length < 2 ^ 64) :
    (engUpdate e data).count.toNat = e.count.toNat + 8 * data.length := by
  simp only [engUpdate_count, bitLength, BitVec.toNat_add, BitVec.toNat_ofNat]
  omega

/-- Padding ends on a block boundary (R125). -/
theorem pad_length (count : BitVec 64) (n : Nat) : (n + (pad count n).length) % 64 = 0 := by
  simp only [pad, padZeros, List.length_cons, List.length_append, zeros_length, le64_length]
  omega

@[simp] theorem engFinal_length (e : Engine) : (engFinal e).length = 16 := rfl
@[simp] theorem md5_length (m : Bytes) : (md5 m).length = 16 := rfl

/-! ## Codecs -/

@[simp] theorem hex_nil : hex [] = [] := rfl

@[simp] theorem hex_cons (x : Byte) (b : Bytes) :
    hex (x :: b) = hexDigit (highNibble x) :: hexDigit (lowNibble x) :: hex b := rfl

@[simp] theorem hex_length (b : Bytes) : (hex b).length = 2 * b.length := by
  induction b with
  | nil => rfl
  | cons x b ih => simp only [hex_cons, List.length_cons, ih]; omega

@[simp] theorem to64_length (v n : Nat) : (to64 v n).length = n := by
  induction n generalizing v with
  | zero => rfl
  | succ n ih => simp [to64, ih]

@[simp] theorem a64_length (d : Bytes) : (a64 d).length = 22 := by simp [a64]

/-- Character `j` of `to64` is the `j`-th six bits of the value (R141). -/
theorem to64_getElem? (v n j : Nat) (h : j < n) : (to64 v n)[j]? = some (a64Char (v / 64 ^ j % 64)) := by
  induction n generalizing v j with
  | zero => omega
  | succ n ih =>
    cases j with
    | zero => simp [to64, Nat.and_two_pow_sub_one_eq_mod v 6]
    | succ j =>
      simp only [to64, List.getElem?_cons_succ]
      rw [ih _ _ (by omega), Nat.shiftRight_eq_div_pow, Nat.div_div_eq_div_mul]
      rw [show 2 ^ 6 * 64 ^ j = 64 ^ (j + 1) from (Nat.pow_succ').symm]

@[simp] theorem apr1Magic_length : apr1Magic.length = 6 := rfl
@[simp] theorem salt8_length (salt : Bytes) : (salt8 salt).length = min 8 salt.length := by simp [salt8]

/-- The apr1 string is 29 bytes and the salt's first eight (R161). -/
@[simp] theorem apr1_length (password salt : Bytes) : (apr1 password salt).length = 29 + min 8 salt.length := by
  simp only [apr1, List.length_append, apr1Magic_length, salt8_length, a64_length, List.length_singleton]
  omega

theorem attrValue_length (sel : AttrSel) : (attrValue sel).length = 1 ∨ (attrValue sel).length = 3 := by
  cases sel <;> simp [attrValue]

end Sys2Proof.Machine
end

