-- ==== Sys2Proof/Laws/Decode.lean ====
section
/-! SUPPORT. What each piece of the decoder accepts, and that it takes back what the encoder writes. -/

namespace Sys2Proof

open Machine

/-! ## Operands -/

theorem takeFix_append (a b : Bytes) : takeFix a.length (a ++ b) = .ok (a, b) := by
  simp [takeFix]

theorem takeFix_append_of_length {k : Nat} {a : Bytes} (h : a.length = k) (b : Bytes) :
    takeFix k (a ++ b) = .ok (a, b) := h ▸ takeFix_append a b

theorem takeFix_inv {k : Nat} {rest a b : Bytes} (h : takeFix k rest = .ok (a, b)) :
    rest = a ++ b ∧ a.length = k := by
  unfold takeFix at h
  split at h
  · cases h
  · cases h
    exact ⟨(List.take_append_drop k rest).symm, by simp; omega⟩

theorem takeVar_encodeVar {a : Bytes} (h : a.length ≤ Config.lenMax) (b : Bytes) :
    takeVar (encodeVar a ++ b) = .ok (a, b) := by
  have hl : (BitVec.ofNat 32 a.length).toNat = a.length := by
    simp only [Config.lenMax] at h
    simp only [BitVec.toNat_ofNat]
    omega
  simp only [encodeVar, le32, List.cons_append, List.nil_append, takeVar, ofLe32_le32, hl]
  exact takeFix_append a b

/-- The four bytes of a length are those of the length they spell. -/
theorem le32_ofLe32 (b0 b1 b2 b3 : Byte) : le32 (ofLe32 b0 b1 b2 b3) = [b0, b1, b2, b3] := by
  have key : ∀ (j : Nat) (b : Byte), (j = 0 ∧ b = b0 ∨ j = 8 ∧ b = b1 ∨ j = 16 ∧ b = b2 ∨ j = 24 ∧ b = b3) →
      (ofLe32 b0 b1 b2 b3).extractLsb' j 8 = b := by
    intro j b h
    ext k hk
    simp only [BitVec.getElem_extractLsb', ofLe32, BitVec.getLsbD_or, BitVec.getLsbD_shiftLeft,
      BitVec.getLsbD_setWidth]
    have past : ∀ (x : Byte) (m : Nat), 8 ≤ m → x.getLsbD m = false := fun x m hm => BitVec.getLsbD_of_ge x m hm
    rcases h with ⟨rfl, rfl⟩ | ⟨rfl, rfl⟩ | ⟨rfl, rfl⟩ | ⟨rfl, rfl⟩
    · simp [show k < 32 by omega, show k < 16 by omega, show k < 24 by omega, hk]
    · simp [show 8 + k < 32 by omega, show 8 + k < 16 by omega, show 8 + k < 24 by omega, show k < 32 by omega,
        BitVec.getLsbD_eq_getElem hk]
    · simp [show 16 + k < 32 by omega, show ¬ 16 + k < 16 by omega, show 16 + k < 24 by omega,
        show 16 + k - 8 = 8 + k by omega, show k < 32 by omega, past _ (16 + k) (by omega),
        BitVec.getLsbD_eq_getElem hk]
    · simp [show 24 + k < 32 by omega, show ¬ 24 + k < 16 by omega, show ¬ 24 + k < 24 by omega,
        show 24 + k - 8 = 16 + k by omega, show 24 + k - 16 = 8 + k by omega, show k < 32 by omega,
        past _ (24 + k) (by omega), past _ (16 + k) (by omega), BitVec.getLsbD_eq_getElem hk]
  simp [le32, key]

theorem takeVar_inv {rest a b : Bytes} (h : takeVar rest = .ok (a, b)) :
    rest = encodeVar a ++ b ∧ a.length ≤ Config.lenMax := by
  unfold takeVar at h
  split at h
  · rename_i b0 b1 b2 b3 tl
    obtain ⟨rfl, hl⟩ := takeFix_inv h
    have hlt := (ofLe32 b0 b1 b2 b3).isLt
    refine ⟨?_, by simp only [Config.lenMax]; omega⟩
    rw [encodeVar, hl, BitVec.ofNat_toNat, BitVec.setWidth_eq, le32_ofLe32]
    rfl
  · cases h

theorem finish_nil (i : Instr) : finish i [] = .ok i := rfl

theorem finish_inv {i j : Instr} {rest : Bytes} (h : finish i rest = .ok j) : rest = [] ∧ j = i := by
  cases rest with
  | nil => exact ⟨rfl, by cases h; rfl⟩
  | cons x r => cases h

/-! ## Header fields -/

theorem reservedZero_inv {x : Fin 16} {u : Unit} (h : reservedZero x = .ok u) : x = 0 := by
  unfold reservedZero at h
  split at h
  · exact Fin.ext ‹_›
  · cases h

theorem slotField_inv {nctx : Nat} {c : SlotNo} {u : Unit} (h : slotField nctx c = .ok u) :
    SlotNo.legal nctx c = true := by
  unfold slotField at h
  split at h
  · assumption
  · cases h

/-- A sequence of two checks succeeds where both do. -/
theorem bind_ok {ε α β : Type} {x : Except ε α} {f : α → Except ε β} {b : β} (h : (x >>= f) = .ok b) :
    ∃ a, x = .ok a ∧ f a = .ok b := by
  cases x with
  | error e => cases h
  | ok a => exact ⟨a, rfl, h⟩

theorem formatD_inv {nctx : Nat} {cd cs : Fin 16} {u : Unit} (h : formatD nctx cd cs = .ok u) :
    cs = 0 ∧ SlotNo.legal nctx cd = true := by
  obtain ⟨_, h1, h2⟩ := bind_ok h
  exact ⟨reservedZero_inv h1, slotField_inv h2⟩

theorem formatDS_inv {nctx : Nat} {cd cs : Fin 16} {u : Unit} (h : formatDS nctx cd cs = .ok u) :
    SlotNo.legal nctx cd = true ∧ SlotNo.legal nctx cs = true := by
  obtain ⟨_, h1, h2⟩ := bind_ok h
  exact ⟨slotField_inv h1, slotField_inv h2⟩

theorem formatS_inv {nctx : Nat} {cd cs : Fin 16} {u : Unit} (h : formatS nctx cd cs = .ok u) :
    cd = 0 ∧ SlotNo.legal nctx cs = true := by
  obtain ⟨_, h1, h2⟩ := bind_ok h
  exact ⟨reservedZero_inv h1, slotField_inv h2⟩

theorem formatN_inv {cd cs : Fin 16} {u : Unit} (h : formatN cd cs = .ok u) : cd = 0 ∧ cs = 0 := by
  obtain ⟨_, h1, h2⟩ := bind_ok h
  exact ⟨reservedZero_inv h1, reservedZero_inv h2⟩

theorem formatSel_inv {cd cs : Fin 16} {sel : AttrSel} (h : formatSel cd cs = .ok sel) :
    cd = 0 ∧ cs = sel.field := by
  obtain ⟨_, h1, h2⟩ := bind_ok h
  refine ⟨reservedZero_inv h1, ?_⟩
  split at h2 <;> first | (cases h2; exact Fin.ext ‹_›) | cases h2

theorem reservedZero_zero : reservedZero 0 = .ok () := rfl

theorem slotField_legal {nctx : Nat} {c : SlotNo} (h : SlotNo.legal nctx c = true) : slotField nctx c = .ok () := by
  simp [slotField, h]

theorem formatD_legal {nctx : Nat} {cd : SlotNo} (h : SlotNo.legal nctx cd = true) : formatD nctx cd 0 = .ok () := by
  simp [formatD, reservedZero_zero, slotField_legal h, bind, Except.bind]

theorem formatDS_legal {nctx : Nat} {cd cs : SlotNo} (h : SlotNo.legal nctx cd = true)
    (h' : SlotNo.legal nctx cs = true) : formatDS nctx cd cs = .ok () := by
  simp [formatDS, slotField_legal h, slotField_legal h', bind, Except.bind]

theorem formatS_legal {nctx : Nat} {cs : SlotNo} (h : SlotNo.legal nctx cs = true) : formatS nctx 0 cs = .ok () := by
  simp [formatS, reservedZero_zero, slotField_legal h, bind, Except.bind]

/-- Decoding starts from the two header bytes. -/
theorem decodeFrame_header (nctx : Nat) (opc : Byte) (cd cs : Fin 16) (rest : Bytes) :
    decodeFrame nctx (header opc cd cs ++ rest) = decodeBody nctx opc cd cs rest := by
  simp [header, decodeFrame]

theorem headerWord_header (opc : Byte) (cd cs : Fin 16) (rest : Bytes) :
    headerWord (header opc cd cs ++ rest) = opc.toNat * 256 + (16 * cd.val + cs.val) := by
  have h1 := cd.isLt
  have h2 := cs.isLt
  simp only [header, headerWord, ofNibbles, List.cons_append, BitVec.toNat_ofNat]
  omega

end Sys2Proof
end

