-- ==== Sys2Proof/Laws/State.lean ====
section
/-! SUPPORT. One lemma per field per update of State, so that no proof unfolds a record update. -/

namespace Sys2Proof.Machine

variable (s : State) (st : Status) (r : Bytes) (c : SlotNo) (v : Slot)

@[simp] theorem State.respond_ctx : (s.respond st r).ctx = s.ctx := rfl
@[simp] theorem State.respond_halt : (s.respond st r).halt = s.halt := rfl
@[simp] theorem State.respond_commands : (s.respond st r).commands = s.commands := rfl
@[simp] theorem State.respond_responses :
    (s.respond st r).responses = s.responses ++ [st.code :: r] := rfl
@[simp] theorem State.respond_nctx : (s.respond st r).nctx = s.nctx := rfl
@[simp] theorem State.respond_slot : (s.respond st r).slot c = s.slot c := rfl

@[simp] theorem State.setSlot_ctx : (s.setSlot c v).ctx = s.ctx.set c.val v := rfl
@[simp] theorem State.setSlot_halt : (s.setSlot c v).halt = s.halt := rfl
@[simp] theorem State.setSlot_commands : (s.setSlot c v).commands = s.commands := rfl
@[simp] theorem State.setSlot_responses : (s.setSlot c v).responses = s.responses := rfl
@[simp] theorem State.setSlot_nctx : (s.setSlot c v).nctx = s.nctx := by simp [State.nctx]

@[simp] theorem State.resetBlock_ctx : s.resetBlock.ctx = List.replicate s.nctx .idle := rfl
@[simp] theorem State.resetBlock_halt : s.resetBlock.halt = false := rfl
@[simp] theorem State.resetBlock_commands : s.resetBlock.commands = s.commands := rfl
@[simp] theorem State.resetBlock_responses : s.resetBlock.responses = s.responses := rfl
@[simp] theorem State.resetBlock_nctx : s.resetBlock.nctx = s.nctx := by simp [State.nctx]

@[simp] theorem State.resetOf_ctx (n : Nat) : (State.resetOf n).ctx = List.replicate n .idle := rfl
@[simp] theorem State.resetOf_halt (n : Nat) : (State.resetOf n).halt = false := rfl
@[simp] theorem State.resetOf_commands (n : Nat) : (State.resetOf n).commands = [] := rfl
@[simp] theorem State.resetOf_responses (n : Nat) : (State.resetOf n).responses = [] := rfl
@[simp] theorem State.resetOf_nctx (n : Nat) : (State.resetOf n).nctx = n := by simp [State.nctx]

@[simp] theorem State.withCommands_ctx (l : List HostAct) :
    ({ s with commands := l } : State).ctx = s.ctx := rfl
@[simp] theorem State.withCommands_nctx (l : List HostAct) :
    ({ s with commands := l } : State).nctx = s.nctx := rfl
@[simp] theorem State.withCommands_halt (l : List HostAct) :
    ({ s with commands := l } : State).halt = s.halt := rfl
@[simp] theorem State.withCommands_responses (l : List HostAct) :
    ({ s with commands := l } : State).responses = s.responses := rfl

/-- Reading the slot just written. -/
theorem State.setSlot_slot_self (h : c.val < s.nctx) : (s.setSlot c v).slot c = v := by
  simp_all [State.slot, State.nctx]

/-- Writing one slot leaves every other alone (R59). -/
theorem State.setSlot_slot_of_ne {d : SlotNo} (h : d ≠ c) : (s.setSlot c v).slot d = s.slot d := by
  have hv : c.val ≠ d.val := fun e => h (Fin.ext e.symm)
  simp [State.slot, List.getD_eq_getElem?_getD, List.getElem?_set_ne hv]

/-- What the slot read is where the context file has it. -/
theorem State.slot_of_getElem? (h : s.ctx[c.val]? = some v) : s.slot c = v := by
  simp [State.slot, List.getD_eq_getElem?_getD, h]

/-- A slot number below NCTX names the slot that `slot` reads. -/
theorem State.getElem?_of_lt (h : c.val < s.nctx) : s.ctx[c.val]? = some (s.slot c) := by
  simp_all [State.slot, State.nctx, List.getD_eq_getElem?_getD]

/-- A slot that the context file has is below NCTX. -/
theorem State.lt_of_getElem? (h : s.ctx[c.val]? = some v) : c.val < s.nctx :=
  (List.getElem?_eq_some_iff.mp h).1

end Sys2Proof.Machine
end

