-- ==== Sys2Proof/Laws/Ops.lean ====
section
/-! SUPPORT. What each shared operation can do, said once. -/

namespace Sys2Proof.Machine

variable {s t : State} {i : Instr} {body : Result} {c : SlotNo}

theorem State.ok_eq (s : State) (r : Bytes) : s.ok r = .next (s.respond .ok r) := rfl

theorem State.raise_eq (s : State) (st : Status) : s.raise st = .next (s.respond st []) := rfl

theorem State.command_halted (h : s.halt = true) : s.command i body = .next (s.respond .invariant []) := by
  simp [State.command, h, State.raise]

theorem State.command_illegal (h : s.halt = false) (hw : i.wf s.nctx = false) :
    s.command i body = .next (s.respond .illegal []) := by
  simp [State.command, h, hw, State.raise]

theorem State.command_legal (h : s.halt = false) (hw : i.wf s.nctx = true) : s.command i body = body := by
  simp [State.command, h, hw]

/-- Everything `command` can answer: one of the two errors, with nothing else changed, or what the body answers. -/
theorem State.command_cases (s : State) (i : Instr) (body : Result) :
    (s.halt = true ∧ s.command i body = .next (s.respond .invariant [])) ∨
    (s.halt = false ∧ i.wf s.nctx = false ∧ s.command i body = .next (s.respond .illegal [])) ∨
    (s.halt = false ∧ i.wf s.nctx = true ∧ s.command i body = body) := by
  cases h : s.halt
  · cases hw : i.wf s.nctx
    · exact .inr (.inl ⟨rfl, rfl, State.command_illegal h hw⟩)
    · exact .inr (.inr ⟨rfl, rfl, State.command_legal h hw⟩)
  · exact .inl ⟨rfl, State.command_halted h⟩

/-- `withActive` on an IDLE slot. -/
theorem State.withActive_idle {f : Engine → Result} (h : s.slot c = .idle) :
    s.withActive c f = .next (s.respond .seq []) := by
  simp [State.withActive, h, State.raise]

/-- `withActive` on an ACTIVE slot. -/
theorem State.withActive_active {f : Engine → Result} {e : Engine} (h : s.slot c = .active e) :
    s.withActive c f = f e := by
  simp [State.withActive, h]

/-- Everything `withActive` can answer. -/
theorem State.withActive_cases (s : State) (c : SlotNo) (f : Engine → Result) :
    (s.slot c = .idle ∧ s.withActive c f = .next (s.respond .seq [])) ∨
    (∃ e, s.slot c = .active e ∧ s.withActive c f = f e) := by
  cases h : s.slot c with
  | idle => exact .inl ⟨rfl, State.withActive_idle h⟩
  | active e => exact .inr ⟨e, rfl, State.withActive_active h⟩

/-- A step with nothing on the command stream. -/
theorem step_of_nil (h : s.commands = []) : step s = .next s := by
  simp [step, stepServe, State.fetch, h]

/-- A step on an action of HOST. -/
theorem step_of_cons {a : HostAct} {rest : List HostAct} (h : s.commands = a :: rest) :
    step s = serve a { s with commands := rest } := by
  simp [step, stepServe, State.fetch, h]

/-- A frame that decodes, at a block that is not halted. -/
theorem serveFrame_of_ok {f : Bytes} (h : s.halt = false) (hd : decodeFrame s.nctx f = .ok i) :
    serveFrame f s = exec i s := by
  simp [serveFrame, h, hd]

/-- A frame that does not decode, at a block that is not halted. -/
theorem serveFrame_of_error {f : Bytes} {why : Illegal} (h : s.halt = false)
    (hd : decodeFrame s.nctx f = .error why) : serveFrame f s = .next (s.respond .illegal []) := by
  simp [serveFrame, h, hd, State.raise]

/-- Everything a frame can lead to, in the order of R196. -/
theorem serveFrame_cases (f : Bytes) (s : State) :
    (s.halt = true ∧ serveFrame f s = .next (s.respond .invariant [])) ∨
    (s.halt = false ∧ (∃ why, decodeFrame s.nctx f = .error why) ∧
      serveFrame f s = .next (s.respond .illegal [])) ∨
    (s.halt = false ∧ ∃ i, decodeFrame s.nctx f = .ok i ∧ serveFrame f s = exec i s) := by
  cases h : s.halt
  · cases hd : decodeFrame s.nctx f with
    | error why => exact .inr (.inl ⟨rfl, ⟨why, rfl⟩, serveFrame_of_error h hd⟩)
    | ok i => exact .inr (.inr ⟨rfl, i, rfl, serveFrame_of_ok h hd⟩)
  · exact .inl ⟨rfl, by simp [serveFrame, h, State.raise]⟩

end Sys2Proof.Machine
end

