-- ==== Sys2Proof/Laws/Exec.lean ====
section
/-! SUPPORT. One lemma per command: what `exec` answers on a legal command of a block that is not halted. Provers
cite these instead of unfolding the meanings. -/

namespace Sys2Proof.Machine

variable {s : State}

/-- Every command answers E_INVARIANT while HALT is set. -/
theorem exec_halted (i : Instr) (h : s.halt = true) : exec i s = .next (s.respond .invariant []) := by
  cases i <;> exact State.command_halted h

/-- Every command that is not legal answers E_ILLEGAL. -/
theorem exec_illegal {i : Instr} (h : s.halt = false) (hw : i.wf s.nctx = false) :
    exec i s = .next (s.respond .illegal []) := by
  cases i <;> exact State.command_illegal h hw

/-- A legal command that reads an IDLE slot answers E_SEQ. -/
theorem exec_seq {i : Instr} {c : SlotNo} (h : s.halt = false) (hw : i.wf s.nctx = true)
    (hr : readsSlot i = some c) (hs : s.slot c = .idle) : exec i s = .next (s.respond .seq []) := by
  cases i <;> cases hr <;> exact (State.command_legal h hw).trans (State.withActive_idle hs)

variable (h : s.halt = false)

include h

theorem exec_init {cd : SlotNo} (hw : (Instr.init cd).wf s.nctx = true) :
    exec (.init cd) s = .next ((s.setSlot cd (.active engInit)).respond .ok []) :=
  State.command_legal h hw

theorem exec_update {cd : SlotNo} {data : Bytes} {e : Engine} (hw : (Instr.update cd data).wf s.nctx = true)
    (hs : s.slot cd = .active e) (hc : e.count.toNat + 8 * data.length < 2 ^ 64) :
    exec (.update cd data) s = .next ((s.setSlot cd (.active (engUpdate e data))).respond .ok []) :=
  (State.command_legal h hw).trans ((State.withActive_active hs).trans (if_pos hc))

theorem exec_update_overflow {cd : SlotNo} {data : Bytes} {e : Engine}
    (hw : (Instr.update cd data).wf s.nctx = true) (hs : s.slot cd = .active e)
    (hc : ¬ e.count.toNat + 8 * data.length < 2 ^ 64) :
    exec (.update cd data) s = .refused .counterOverflow :=
  (State.command_legal h hw).trans ((State.withActive_active hs).trans (if_neg hc))

theorem exec_final {cd : SlotNo} {e : Engine} (hw : (Instr.final cd).wf s.nctx = true)
    (hs : s.slot cd = .active e) :
    exec (.final cd) s = .next ((s.setSlot cd .idle).respond .ok (engFinal e)) :=
  (State.command_legal h hw).trans (State.withActive_active hs)

theorem exec_copy {cd cs : SlotNo} {e : Engine} (hw : (Instr.copy cd cs).wf s.nctx = true)
    (hs : s.slot cs = .active e) :
    exec (.copy cd cs) s = .next ((s.setSlot cd (.active e)).respond .ok []) :=
  (State.command_legal h hw).trans (State.withActive_active hs)

theorem exec_finalhex {cd : SlotNo} {e : Engine} (hw : (Instr.finalhex cd).wf s.nctx = true)
    (hs : s.slot cd = .active e) :
    exec (.finalhex cd) s = .next ((s.setSlot cd .idle).respond .ok (hex (engFinal e))) :=
  (State.command_legal h hw).trans (State.withActive_active hs)

theorem exec_digest {cs : SlotNo} {e : Engine} (hw : (Instr.digest cs).wf s.nctx = true)
    (hs : s.slot cs = .active e) :
    exec (.digest cs) s = .next (s.respond .ok (engFinal e)) :=
  (State.command_legal h hw).trans (State.withActive_active hs)

theorem exec_hexdigest {cs : SlotNo} {e : Engine} (hw : (Instr.hexdigest cs).wf s.nctx = true)
    (hs : s.slot cs = .active e) :
    exec (.hexdigest cs) s = .next (s.respond .ok (hex (engFinal e))) :=
  (State.command_legal h hw).trans (State.withActive_active hs)

theorem exec_md5 {data : Bytes} (hw : (Instr.md5 data).wf s.nctx = true) :
    exec (.md5 data) s = .next (s.respond .ok (hex (md5 data))) :=
  State.command_legal h hw

theorem exec_xform {state block : Bytes} (hw : (Instr.xform state block).wf s.nctx = true) :
    exec (.xform state block) s = .next (s.respond .ok (bt (.ofBytes state) block).bytes) :=
  State.command_legal h hw

theorem exec_hexenc {dg : Bytes} (hw : (Instr.hexenc dg).wf s.nctx = true) :
    exec (.hexenc dg) s = .next (s.respond .ok (hex dg)) :=
  State.command_legal h hw

theorem exec_a64enc {dg : Bytes} (hw : (Instr.a64enc dg).wf s.nctx = true) :
    exec (.a64enc dg) s = .next (s.respond .ok (a64 dg)) :=
  State.command_legal h hw

theorem exec_apr1enc {password salt : Bytes} (hw : (Instr.apr1enc password salt).wf s.nctx = true) :
    exec (.apr1enc password salt) s = .next (s.respond .ok (apr1 password salt)) :=
  State.command_legal h hw

theorem exec_apr1val_some {password stored : Bytes} {ok : Bool}
    (hw : (Instr.apr1val password stored).wf s.nctx = true) (hv : validate password stored = some ok) :
    exec (.apr1val password stored) s = .next (s.respond .ok [boolByte ok]) := by
  refine (State.command_legal h hw).trans ?_
  rw [hv]
  rfl

theorem exec_apr1val_none {password stored : Bytes}
    (hw : (Instr.apr1val password stored).wf s.nctx = true) (hv : validate password stored = none) :
    exec (.apr1val password stored) s = .next (s.respond .malformed []) := by
  refine (State.command_legal h hw).trans ?_
  rw [hv]
  rfl

theorem exec_attr (sel : AttrSel) : exec (.attr sel) s = .next (s.respond .ok (attrValue sel)) :=
  State.command_legal h rfl

omit h

/-- Everything a command can lead to when it answers a next state: an error with nothing else changed, or status OK
with at most the slot of `writesSlot` changed. -/
theorem exec_next {i : Instr} {t : State} (h : exec i s = .next t) :
    (∃ st, st ≠ .ok ∧ t = s.respond st []) ∨
    (s.halt = false ∧ i.wf s.nctx = true ∧ ∃ r,
      (writesSlot i = none ∧ t = s.respond .ok r) ∨
      (∃ c v, writesSlot i = some c ∧ t = (s.setSlot c v).respond .ok r)) := by
  have err : ∀ {st}, st ≠ Status.ok → exec i s = .next (s.respond st []) →
      ∃ st, st ≠ Status.ok ∧ t = s.respond st [] := fun hne he => ⟨_, hne, by rw [h] at he; cases he; rfl⟩
  have fin : ∀ {u}, exec i s = .next u → t = u := fun he => by rw [h] at he; cases he; rfl
  cases hh : s.halt with
  | true => exact .inl (err (by decide) (exec_halted i hh))
  | false =>
  cases hw : i.wf s.nctx with
  | false => exact .inl (err (by decide) (exec_illegal hh hw))
  | true =>
  cases i with
  | init cd => exact .inr ⟨rfl, rfl, _, .inr ⟨cd, _, rfl, fin (exec_init hh hw)⟩⟩
  | update cd data =>
    cases hs : s.slot cd with
    | idle => exact .inl (err (by decide) (exec_seq hh hw rfl hs))
    | active e =>
      by_cases hc : e.count.toNat + 8 * data.length < 2 ^ 64
      · exact .inr ⟨rfl, rfl, _, .inr ⟨cd, _, rfl, fin (exec_update hh hw hs hc)⟩⟩
      · rw [exec_update_overflow hh hw hs hc] at h
        cases h
  | final cd =>
    cases hs : s.slot cd with
    | idle => exact .inl (err (by decide) (exec_seq hh hw rfl hs))
    | active e => exact .inr ⟨rfl, rfl, _, .inr ⟨cd, _, rfl, fin (exec_final hh hw hs)⟩⟩
  | copy cd cs =>
    cases hs : s.slot cs with
    | idle => exact .inl (err (by decide) (exec_seq hh hw rfl hs))
    | active e => exact .inr ⟨rfl, rfl, _, .inr ⟨cd, _, rfl, fin (exec_copy hh hw hs)⟩⟩
  | finalhex cd =>
    cases hs : s.slot cd with
    | idle => exact .inl (err (by decide) (exec_seq hh hw rfl hs))
    | active e => exact .inr ⟨rfl, rfl, _, .inr ⟨cd, _, rfl, fin (exec_finalhex hh hw hs)⟩⟩
  | digest cs =>
    cases hs : s.slot cs with
    | idle => exact .inl (err (by decide) (exec_seq hh hw rfl hs))
    | active e => exact .inr ⟨rfl, rfl, _, .inl ⟨rfl, fin (exec_digest hh hw hs)⟩⟩
  | hexdigest cs =>
    cases hs : s.slot cs with
    | idle => exact .inl (err (by decide) (exec_seq hh hw rfl hs))
    | active e => exact .inr ⟨rfl, rfl, _, .inl ⟨rfl, fin (exec_hexdigest hh hw hs)⟩⟩
  | md5 data => exact .inr ⟨rfl, rfl, _, .inl ⟨rfl, fin (exec_md5 hh hw)⟩⟩
  | xform state block => exact .inr ⟨rfl, rfl, _, .inl ⟨rfl, fin (exec_xform hh hw)⟩⟩
  | hexenc dg => exact .inr ⟨rfl, rfl, _, .inl ⟨rfl, fin (exec_hexenc hh hw)⟩⟩
  | a64enc dg => exact .inr ⟨rfl, rfl, _, .inl ⟨rfl, fin (exec_a64enc hh hw)⟩⟩
  | apr1enc password salt => exact .inr ⟨rfl, rfl, _, .inl ⟨rfl, fin (exec_apr1enc hh hw)⟩⟩
  | apr1val password stored =>
    cases hv : validate password stored with
    | none => exact .inl (err (by decide) (exec_apr1val_none hh hw hv))
    | some ok => exact .inr ⟨rfl, rfl, _, .inl ⟨rfl, fin (exec_apr1val_some hh hw hv)⟩⟩
  | attr sel => exact .inr ⟨rfl, rfl, _, .inl ⟨rfl, fin (exec_attr hh sel)⟩⟩

end Sys2Proof.Machine
end

