-- ==== Sys2Proof/Laws/PerInstr.lean ====
section
/-! SUPPORT. The per-instruction family HeaderRow: the header of every command's frame selects its own row of
spec/30_encoding.md R73. -/

namespace Sys2Proof.Laws.HeaderRow

open Sys2Proof

/-- The opcode byte of a command's row, and which of CD and CS the row uses (R73). -/
def row : Instr → Byte × Bool × Bool
  | .init _ => (0x01, true, false)
  | .update _ _ => (0x02, true, false)
  | .final _ => (0x03, true, false)
  | .copy _ _ => (0x04, true, true)
  | .finalhex _ => (0x05, true, false)
  | .digest _ => (0x06, false, true)
  | .hexdigest _ => (0x07, false, true)
  | .md5 _ => (0x08, false, false)
  | .xform _ _ => (0x09, false, false)
  | .hexenc _ => (0x0A, false, false)
  | .a64enc _ => (0x0B, false, false)
  | .apr1enc _ _ => (0x0C, false, false)
  | .apr1val _ _ => (0x0D, false, false)
  | .attr _ => (0x0E, false, true)

/-- The frame begins with the row's opcode, and a slot field the row does not use is zero. -/
def Statement (i : Instr) : Prop :=
  ∃ (cd cs : Fin 16) (rest : Bytes), encode i = header (row i).1 cd cs ++ rest ∧
    ((row i).2.1 = false → cd = 0) ∧ ((row i).2.2 = false → cs = 0)

theorem init (cd : SlotNo) : Statement (.init cd) := ⟨cd, 0, [], rfl, nofun, fun _ => rfl⟩
theorem update (cd : SlotNo) (data : Bytes) : Statement (.update cd data) := ⟨cd, 0, _, rfl, nofun, fun _ => rfl⟩
theorem final (cd : SlotNo) : Statement (.final cd) := ⟨cd, 0, [], rfl, nofun, fun _ => rfl⟩
theorem copy (cd cs : SlotNo) : Statement (.copy cd cs) := ⟨cd, cs, [], rfl, nofun, nofun⟩
theorem finalhex (cd : SlotNo) : Statement (.finalhex cd) := ⟨cd, 0, [], rfl, nofun, fun _ => rfl⟩
theorem digest (cs : SlotNo) : Statement (.digest cs) := ⟨0, cs, [], rfl, fun _ => rfl, nofun⟩
theorem hexdigest (cs : SlotNo) : Statement (.hexdigest cs) := ⟨0, cs, [], rfl, fun _ => rfl, nofun⟩
theorem md5 (data : Bytes) : Statement (.md5 data) := ⟨0, 0, _, rfl, fun _ => rfl, fun _ => rfl⟩
theorem xform (state block : Bytes) : Statement (.xform state block) := ⟨0, 0, _, rfl, fun _ => rfl, fun _ => rfl⟩
theorem hexenc (dg : Bytes) : Statement (.hexenc dg) := ⟨0, 0, _, rfl, fun _ => rfl, fun _ => rfl⟩
theorem a64enc (dg : Bytes) : Statement (.a64enc dg) := ⟨0, 0, _, rfl, fun _ => rfl, fun _ => rfl⟩
theorem apr1enc (password salt : Bytes) : Statement (.apr1enc password salt) :=
  ⟨0, 0, _, rfl, fun _ => rfl, fun _ => rfl⟩
theorem apr1val (password stored : Bytes) : Statement (.apr1val password stored) :=
  ⟨0, 0, _, rfl, fun _ => rfl, fun _ => rfl⟩
theorem attr (sel : AttrSel) : Statement (.attr sel) := ⟨0, sel.field, [], rfl, fun _ => rfl, nofun⟩

end Sys2Proof.Laws.HeaderRow
end

