-- ==== Sys2Proof/Tests/Slice0.lean ====
section
/-! SUPPORT. The model's own tests: `test_…` checks one small thing against a value of the spec (mostly of
spec/95_test_vectors.md), `witness_…` shows that the hypotheses of a statement can be met, at the ends of their
ranges. -/

namespace Sys2Proof.Tests

open Sys2Proof Sys2Proof.Machine

-- One theorem at a time: many evaluations waiting at once take a thread and its stack each.
set_option Elab.async false

/-! ## Helpers -/

/-- The bytes of an ASCII text (spec/00_scope.md section 7). -/
def ascii (t : String) : Bytes := t.toList.map fun c => BitVec.ofNat 8 c.toNat

/-- The bytes whose values are the numbers. -/
def bytes (ns : List Nat) : Bytes := ns.map (BitVec.ofNat 8)

/-- The engine value with the initial words (R120). -/
def eng (count : Nat) (buf : Bytes) : Engine := { engInit with count := BitVec.ofNat 64 count, buf := buf }

/-- A block with these slots, and HOST's next actions. -/
def block (slots : List Slot) (acts : List HostAct) : State :=
  { ctx := slots, halt := false, commands := acts, responses := [] }

/-- Four IDLE slots, as after reset with NCTX = 4. -/
def fresh : State := State.resetOf 4

/-- `c0` has been given "foo", `c1` "fo"; `c2` and `c3` are IDLE. -/
def busy : State := block [.active (eng 24 (ascii "foo")), .active (eng 16 (ascii "fo")), .idle, .idle] []

/-- `busy` with HALT set. -/
def halted : State := { busy with halt := true }

/-- An operand of `n` bytes, for lengths too long to write out. -/
def long (n : Nat) : Bytes := zeros n

theorem long_length (n : Nat) : (long n).length = n := List.length_replicate

/-- The last response of an outcome. -/
def answer : Result → Option Bytes
  | .next t => t.responses.getLast?
  | _ => none

/-- Slot `c` in an outcome. -/
def slotIn (c : Nat) : Result → Option Slot
  | .next t => t.ctx[c]?
  | _ => none

/-- The command of a frame; none where it is illegal. -/
def decoded (nctx : Nat) (f : Bytes) : Option Instr := (decodeFrame nctx f).toOption

/-! ## WellFormed refuses (R72, R76) -/

theorem test_wf_refuses_slots_at_nctx :
    (Instr.init 4).wf 4 = false ∧ (Instr.update 4 []).wf 4 = false ∧ (Instr.final 4).wf 4 = false ∧
    (Instr.copy 4 0).wf 4 = false ∧ (Instr.copy 0 4).wf 4 = false ∧ (Instr.finalhex 4).wf 4 = false ∧
    (Instr.digest 4).wf 4 = false ∧ (Instr.hexdigest 4).wf 4 = false ∧ (Instr.init 0).wf 0 = false := by decide

theorem test_wf_refuses_long_operands :
    (Instr.update 0 (long (2 ^ 32))).wf 4 = false ∧ (Instr.md5 (long (2 ^ 32))).wf 4 = false ∧
    (Instr.apr1enc (long (2 ^ 32)) []).wf 4 = false ∧
    (Instr.apr1enc [] (long (2 ^ 32))).wf 4 = false ∧
    (Instr.apr1val (long (2 ^ 32)) []).wf 4 = false ∧
    (Instr.apr1val [] (long (2 ^ 32))).wf 4 = false := by
  simp [Instr.wf, Bytes.isVar, Config.lenMax, long_length]

theorem test_wf_refuses_wrong_lengths :
    (Instr.xform (zeros 15) (zeros 64)).wf 4 = false ∧ (Instr.xform (zeros 16) (zeros 65)).wf 4 = false ∧
    (Instr.hexenc (zeros 15)).wf 4 = false ∧ (Instr.a64enc (zeros 17)).wf 4 = false := by decide

theorem test_wf_accepts_the_last_legal_values :
    (Instr.copy 3 3).wf 4 = true ∧ (Instr.copy 15 15).wf 16 = true ∧ (Instr.xform (zeros 16) (zeros 64)).wf 1 = true ∧
    (Instr.md5 (long (2 ^ 32 - 1))).wf 1 = true := by
  refine ⟨by decide, by decide, by decide, ?_⟩
  simp [Instr.wf, Bytes.isVar, Config.lenMax, long_length]

/-! ## Decoding (the frames of spec/95_test_vectors.md sections 7.3 and 7.4) -/

theorem test_decode_init : decoded 4 [0x01, 0x30] = some (.init 3) := by decide +kernel
theorem test_decode_update :
    decoded 4 [0x02, 0x20, 0x03, 0x00, 0x00, 0x00, 0x66, 0x6f, 0x6f] = some (.update 2 (ascii "foo")) := by
  decide +kernel
theorem test_decode_final : decoded 4 [0x03, 0x10] = some (.final 1) := by decide +kernel
theorem test_decode_copy : decoded 4 [0x04, 0x10] = some (.copy 1 0) := by decide +kernel
theorem test_decode_finalhex : decoded 4 [0x05, 0x00] = some (.finalhex 0) := by decide +kernel
theorem test_decode_digest : decoded 4 [0x06, 0x03] = some (.digest 3) := by decide +kernel
theorem test_decode_hexdigest : decoded 4 [0x07, 0x02] = some (.hexdigest 2) := by decide +kernel
theorem test_decode_md5 :
    decoded 4 [0x08, 0x00, 0x03, 0x00, 0x00, 0x00, 0x66, 0x6f, 0x6f] = some (.md5 (ascii "foo")) := by decide +kernel
theorem test_decode_xform :
    decoded 4 ([0x09, 0x00] ++ bytes (List.range 16) ++ bytes (List.range 64)) =
      some (.xform (bytes (List.range 16)) (bytes (List.range 64))) := by decide +kernel
theorem test_decode_hexenc :
    decoded 4 ([0x0a, 0x00] ++ bytes (List.range 16)) = some (.hexenc (bytes (List.range 16))) := by decide +kernel
theorem test_decode_a64enc :
    decoded 4 ([0x0b, 0x00] ++ bytes (List.range 16)) = some (.a64enc (bytes (List.range 16))) := by decide +kernel
theorem test_decode_apr1enc :
    decoded 4 [0x0c, 0x00, 0x02, 0x00, 0x00, 0x00, 0x61, 0x62, 0x02, 0x00, 0x00, 0x00, 0x78, 0x79] =
      some (.apr1enc (ascii "ab") (ascii "xy")) := by decide +kernel
theorem test_decode_apr1val :
    decoded 4 [0x0d, 0x00, 0x01, 0x00, 0x00, 0x00, 0x61, 0x07, 0x00, 0x00, 0x00, 0x24, 0x61, 0x70, 0x72, 0x31, 0x24,
      0x24] = some (.apr1val (ascii "a") (ascii "$apr1$$")) := by decide +kernel
theorem test_decode_attr : decoded 4 [0x0e, 0x02] = some (.attr .name) := by decide +kernel

theorem test_decode_refuses :
    [[], [0x01], [0x00, 0x00], [0x0f, 0x00], [0xff, 0x00], [0x01, 0x01], [0x01, 0x40], [0x04, 0x14], [0x04, 0x41],
     [0x06, 0x10], [0x08, 0x01, 0x00, 0x00, 0x00, 0x00], [0x01, 0x00, 0x00], [0x02, 0x00],
     [0x02, 0x00, 0x03, 0x00, 0x00], [0x02, 0x00, 0x05, 0x00, 0x00, 0x00, 0x61],
     [0x02, 0x00, 0x01, 0x00, 0x00, 0x00, 0x61, 0x62], [0x02, 0x00, 0xff, 0xff, 0xff, 0xff],
     [0x0a, 0x00] ++ zeros 15, [0x0a, 0x00] ++ zeros 17, [0x09, 0x00] ++ zeros 79, [0x0e, 0x03], [0x0e, 0x0f],
     [0x0e, 0x10]].all (fun f => (decoded 4 f).isNone) = true := by decide +kernel

theorem test_decode_with_sixteen_slots :
    decoded 16 [0x01, 0x40] = some (.init 4) ∧ decoded 16 [0x04, 0x14] = some (.copy 1 4) ∧
    decoded 16 [0x04, 0x41] = some (.copy 4 1) := by decide +kernel

/-- The rows of spec/opcode_table.json, numbered with bit 0 the least significant bit of the 16-bit header. -/
theorem test_table_words :
    decodeTableWord 16 0x0130 = some (.init 3) ∧ decodeTableWord 16 0x0410 = some (.copy 1 0) ∧
    decodeTableWord 16 0x0700 = some (.hexdigest 0) ∧ decodeTableWord 16 0x0800 = some (.md5 []) ∧
    decodeTableWord 16 0x0900 = some (.xform (zeros 16) (zeros 64)) ∧
    decodeTableWord 16 0x0d00 = some (.apr1val [] []) ∧ decodeTableWord 16 0x0e02 = some (.attr .name) ∧
    decodeTableWord 16 0x0000 = none := by decide +kernel

theorem test_placed_word_runs_next :
    answer (step (State.reset.withFetchWord 16 0x0e01)) = some [0x00, 0x40] ∧
    slotIn 3 (step (State.reset.withFetchWord 16 0x0130)) = some (.active engInit) := by decide +kernel

/-! ## The units (spec/95_test_vectors.md sections 2 to 7) -/

theorem test_constants :
    kTable.length = 64 ∧ kTable.foldl (· + ·) 0 = 0x27f3a0bc ∧ kTable.foldl (· ^^^ ·) 0 = 0x10e6cc5a ∧
    ((List.range 64).map rotAmount).sum = 848 := by decide +kernel

theorem test_round_functions :
    fnF 0xefcdab89 0x98badcfe 0x10325476 = 0x98badcfe ∧ fnG 0xefcdab89 0x98badcfe 0x10325476 = 0x88888888 ∧
    fnH 0xefcdab89 0x98badcfe 0x10325476 = 0x67452301 ∧ fnI 0xefcdab89 0x98badcfe 0x10325476 = 0x77777777 ∧
    rol32 0x12345678 7 = 0x1a2b3c09 := by decide +kernel

/-- X5: the block 00 01 .. 3f from the initial state. -/
theorem test_bt_x5 :
    bt engInit.words (bytes (List.range 64)) =
      { a := 0x9144d9ca, b := 0xd901e4c9, c := 0x72fc5b38, d := 0x625ff51e } := by decide +kernel

theorem test_padding :
    pad 440 55 = [0x80, 0xb8, 0x01, 0, 0, 0, 0, 0, 0] ∧ (pad 448 56).length = 72 ∧ (pad 504 63).length = 65 := by
  decide +kernel

/-- The 55-byte and 56-byte messages 00 01 ..: one and two final blocks. -/
theorem test_md5_boundary :
    hex (md5 (bytes (List.range 55))) = ascii "6912ee65fff2d9f9ce2508cddf8bcda0" ∧
    hex (md5 (bytes (List.range 56))) = ascii "51fdd1acda72405dfdfa03fcb85896d7" := by decide +kernel

theorem test_to64 :
    to64 0x000001 4 = ascii "/..." ∧ to64 0x010000 4 = ascii "..E." ∧ to64 0xff 2 = ascii "z1" := by decide +kernel

/-- Section 5.2: the primary pass of APR1("foo", "mYJd83wW"), then round 0. -/
theorem test_apr1_primary :
    (apr1PrimaryEngine (ascii "foo") (ascii "mYJd83wW")
      (bytes [0xda, 0xd4, 0xb7, 0xec, 0x92, 0x83, 0xbd, 0xb0, 0xd6, 0xe4, 0xb9, 0x9b, 0x42, 0x0f, 0x57, 0xfa])) =
      eng 176 (ascii "foo$apr1$mYJd83wW" ++ [0xda, 0xd4, 0xb7, 0x00, 0x00]) := by decide +kernel

theorem test_apr1_round :
    hex (apr1Round (ascii "foo") (ascii "mYJd83wW")
      (bytes [0x8a, 0xef, 0xe1, 0xd8, 0xfa, 0x65, 0xb6, 0x87, 0xe3, 0x05, 0xce, 0xe7, 0x35, 0xd2, 0xf5, 0xea]) 0) =
      ascii "8c9f48e34c1dc30160cadc0d47bbbcfc" := by decide +kernel

/-- Section 5.4: 17 bytes take two pieces of `binary`, and 17 = 10001 in binary. -/
theorem test_apr1_two_pieces :
    (apr1PrimaryEngine (ascii "0123456789abcdefg") (ascii "saltsalt") (bytes (List.range 16))).buf.drop 31 =
      bytes (List.range 16) ++ [0x00] ++ [0x00, 0x30, 0x30, 0x30, 0x00] := by decide +kernel

theorem test_parse_stored :
    parseStored (ascii "$apr1$a$b$M6G") = some (ascii "a") ∧ parseStored (ascii "$apr1$$") = some [] ∧
    parseStored (ascii "$apr1$mYJd83wW") = none ∧ parseStored (ascii "$APR1$x$") = none := by decide +kernel

/-! ## The commands -/

theorem test_init : slotIn 0 (exec (.init 0) busy) = some (.active (eng 0 [])) ∧
    answer (exec (.init 0) busy) = some [0x00] := by decide +kernel

theorem test_update : slotIn 1 (exec (.update 1 (ascii "o")) busy) = some (.active (eng 24 (ascii "foo"))) ∧
    answer (exec (.update 1 (ascii "o")) busy) = some [0x00] := by decide +kernel

/-- Section 3.4: exactly 64 bytes leave an empty buffer and the words of X5. -/
theorem test_update_fills_a_block :
    slotIn 0 (exec (.update 0 (bytes (List.range 64))) (block [.active engInit] [])) =
      some (.active { words := { a := 0x9144d9ca, b := 0xd901e4c9, c := 0x72fc5b38, d := 0x625ff51e }
                      count := 512, buf := [] }) := by decide +kernel

theorem test_final : slotIn 0 (exec (.final 0) busy) = some .idle ∧
    answer (exec (.final 0) busy) = some (0x00 :: bytes [0xac, 0xbd, 0x18, 0xdb, 0x4c, 0xc2, 0xf8, 0x5c, 0xed, 0xef,
      0x65, 0x4f, 0xcc, 0xc4, 0xa4, 0xd8]) := by decide +kernel

theorem test_copy : slotIn 2 (exec (.copy 2 1) busy) = some (.active (eng 16 (ascii "fo"))) ∧
    answer (exec (.copy 1 2) busy) = some [0x02] ∧
    slotIn 1 (exec (.copy 1 2) busy) = some (.active (eng 16 (ascii "fo"))) := by decide +kernel

theorem test_finalhex : slotIn 0 (exec (.finalhex 0) busy) = some .idle ∧
    answer (exec (.finalhex 0) busy) = some (0x00 :: ascii "acbd18db4cc2f85cedef654fccc4a4d8") := by decide +kernel

theorem test_digest : slotIn 1 (exec (.digest 1) busy) = some (.active (eng 16 (ascii "fo"))) ∧
    (answer (exec (.digest 1) busy)).map hex = some (ascii "00eed807024939b808083f0031a56e9872") := by decide +kernel

theorem test_hexdigest : answer (exec (.hexdigest 1) busy) = some (0x00 :: ascii "eed807024939b808083f0031a56e9872") ∧
    answer (exec (.hexdigest 3) busy) = some [0x02] := by decide +kernel

theorem test_md5 :
    answer (exec (.md5 []) fresh) = some (0x00 :: ascii "d41d8cd98f00b204e9800998ecf8427e") := by decide +kernel

/-- X3: the all-zero state and block. -/
theorem test_xform : (answer (exec (.xform (zeros 16) (zeros 64)) fresh)).map hex =
    some (ascii "00971ccdf7813648a532d8682b39a60cf9") := by decide +kernel

theorem test_hexenc : answer (exec (.hexenc (bytes (List.range 16))) fresh) =
    some (0x00 :: ascii "000102030405060708090a0b0c0d0e0f") := by decide +kernel

theorem test_a64enc : answer (exec (.a64enc (bytes [0x20, 0x48, 0xc8, 0x52, 0x8d, 0x72, 0x06, 0x55, 0x6a, 0x8f, 0xbb,
      0x87, 0x94, 0xa6, 0x42, 0x53])) fresh) = some (0x00 :: ascii "IO.6aK3G0d4mHxcImhPX50") := by decide +kernel

/-- A thousand rounds are too many to run here; the string before the hash part is not (section 5.1). -/
theorem test_apr1enc_prefix :
    apr1Magic ++ salt8 (ascii "abcdefghXYZ") ++ [dollar] = ascii "$apr1$abcdefgh$" := by decide +kernel

theorem test_apr1enc_length :
    ∃ t r, exec (.apr1enc [] []) fresh = .next t ∧ t.responses = [0x00 :: r] ∧ r.length = 29 :=
  ⟨_, _, exec_apr1enc rfl (by decide), rfl, apr1_length [] []⟩

theorem test_apr1val :
    answer (exec (.apr1val (ascii "foo") (ascii "$apr1$mYJd83wW")) fresh) = some [0x03] ∧
    answer (exec (.apr1val [] []) fresh) = some [0x03] := by decide +kernel

theorem test_attr : answer (exec (.attr .digestSize) halted) = some [0x04] ∧
    answer (exec (.attr .name) busy) = some [0x00, 0x6d, 0x64, 0x35] := by decide +kernel

/-- Section 7.5: the priorities of R196, all slots IDLE, NCTX = 4. -/
theorem test_priorities :
    answer (step (block fresh.ctx [.frame [0x02, 0x00, 0x01, 0x00, 0x00, 0x00, 0x61]])) = some [0x02] ∧
    answer (step (block fresh.ctx [.frame [0x02, 0x00, 0x05, 0x00, 0x00, 0x00, 0x61]])) = some [0x01] ∧
    answer (step (block fresh.ctx [.frame [0x02, 0x40, 0x01, 0x00, 0x00, 0x00, 0x61]])) = some [0x01] ∧
    answer (step { halted with commands := [.frame [0x00]] }) = some [0x04] := by decide +kernel

theorem test_assembler_comment_and_pseudo :
    assemble ["; a comment".toList, "MD5_INIT ; c0".toList, "  H_DIGEST c15".toList, "ATTR NAME".toList] =
      some [.init 0, .digest 15, .attr .name] ∧ assemble ["INIT c16".toList] = none := by decide +kernel

/-- The model's choices of notes/assumptions/13.md: a semicolon is data inside a literal and a comment outside one. -/
theorem test_assembler_semicolons :
    assembleLine "MD5 \"a;b\";c".toList = some (some (.md5 [0x61, 0x3b, 0x62])) ∧
    assembleLine "INIT c0;c1".toList = some (some (.init 0)) ∧ assembleLine "INIT c01".toList = none ∧
    assembleLine "MD5 x'3b;'".toList = none := by decide +kernel

/-! ## Witnesses: the hypotheses of the statements can be met -/

theorem witness_ResetLeavesSlotsIdleAndHaltClear :
    (0 < 1 ∧ (State.resetOf 1).ctx[0]? = some .idle) ∧ (15 < 16 ∧ (State.resetOf 16).ctx[15]? = some .idle) := by decide

theorem witness_ResetEventRestoresTheResetState :
    ({ halted with commands := [.reset, .reset] } : State).commands = .reset :: [.reset] ∧ 3 < halted.nctx := by decide

theorem witness_WaitsWhileNoFrameHasArrived : busy.commands = [] := rfl

theorem witness_StepRunsTheDecodedCommand :
    ({ busy with commands := [.frame [0x06, 0x01]] } : State).commands = .frame [0x06, 0x01] :: [] ∧
    decodeFrame busy.nctx [0x06, 0x01] = .ok (.digest 1) := ⟨rfl, rfl⟩

theorem witness_ErrorsAreCheckedInOrder :
    halted.halt = true ∧ busy.halt = false ∧ IsIllegal busy.nctx [] ∧ IsIllegal busy.nctx [0x01, 0x40] ∧
    (decodeFrame busy.nctx [0x06, 0x03] = .ok (.digest 3) ∧ readsSlot (.digest 3) = some 3 ∧
      busy.ctx[3]? = some .idle) ∧
    (decodeFrame busy.nctx ([0x0d, 0x00] ++ zeros 8) = .ok (.apr1val [] []) ∧ parseStored [] = none) :=
  ⟨rfl, rfl, ⟨_, rfl⟩, ⟨_, rfl⟩, ⟨rfl, rfl, rfl⟩, ⟨rfl, by decide⟩⟩

theorem witness_HaltIsStickyAndNeverSet :
    (halted.halt = true ∧ ({ halted with commands := [.frame [0x00]] } : State).commands = .frame [0x00] :: []) ∧
    (∃ t, step { halted with commands := [.reset] } = .next t) ∧
    halted.commands = [] ∧
    (∃ t, step { busy with commands := [.frame [0x01, 0x30]] } = .next t ∧ busy.halt = false) :=
  ⟨⟨rfl, rfl⟩, ⟨_, rfl⟩, rfl, ⟨_, rfl, rfl⟩⟩

theorem witness_DecodeOfEncodeIsTheCommand :
    (Instr.copy 15 15).wf 16 = true ∧ (Instr.init 0).wf 1 = true ∧ (Instr.update 3 []).wf 4 = true := by decide

theorem witness_EncodeOfDecodeIsTheFrame : decodeFrame 4 [0x04, 0x33] = .ok (.copy 3 3) := rfl

theorem witness_HeaderSelectsTheRowOfTheCommand : decodeFrame 16 [0x04, 0xff] = .ok (.copy 15 15) := rfl

theorem witness_FrameLengthFollowsFromTheOperands :
    decodeFrame 1 [0x08, 0x00, 0x01, 0x00, 0x00, 0x00, 0x61] = .ok (.md5 [0x61]) := rfl

theorem witness_ReservedAndIllFormedFramesAreIllegal :
    ([] : Bytes).length < 2 ∧ [(0x01 : Byte)].length < 2 ∧ (0x0F : Byte) ≤ 0x0F ∧ (0x0F : Byte) ≤ 0xFF ∧
    ((0x05 : Byte) ∈ [0x01, 0x02, 0x03, (0x05 : Byte)] ∧ lowNibble 0x01 ≠ 0 ∧ 4 ≤ (highNibble 0x40).val) ∧
    4 ≤ (lowNibble 0x04).val ∧ (highNibble 0x10 ≠ 0 ∧ 4 ≤ (lowNibble 0x0f).val) ∧
    ((0x08 : Byte) ≤ 0x08 ∧ (0x0D : Byte) ≤ 0x0D ∧ (0x01 : Byte) ≠ 0x00) ∧ 3 ≤ (lowNibble 0x03).val ∧
    ((0x0D : Byte) ∈ [0x02, 0x08, 0x0C, (0x0D : Byte)] ∧ ([] : Bytes).length < (1 : Word).toNat) ∧
    ((Instr.init 3).wf 4 = true ∧ 1 < (encode (.init 3)).length) ∧
    (busy.nctx = 4 ∧ busy.halt = false ∧ IsIllegal 4 [0x0F, 0x00]) :=
  ⟨by decide, by decide, by decide, by decide, by decide, by decide, by decide, by decide, by decide, by decide,
    by decide, rfl, rfl, ⟨_, rfl⟩⟩

theorem witness_RotationMovesEachBit : (1 ≤ 1 ∧ 1 ≤ 31 ∧ 0 < 32) ∧ (1 ≤ 31 ∧ 31 ≤ 31 ∧ 31 < 32) := by decide

theorem witness_BtIsFourRoundsOfSixteenOperations : (zeros 64).length = 64 := by decide

theorem witness_SerialisationIsLittleEndian :
    3 < 4 ∧ 7 < 8 ∧ 4 * 15 + 4 ≤ (zeros 64).length ∧ (zeros 16).length = 16 := by decide

/-- For the statements that check HALT and legality first: a halted block; an illegal command; a legal one at the end
of its range. -/
theorem witness_XformAnswersTheBlockTransform :
    halted.halt = true ∧ busy.halt = false ∧ ¬ ((zeros 15).length = 16 ∧ (zeros 64).length = 64) ∧
    ((zeros 16).length = 16 ∧ (zeros 64).length = 64) ∧ (0x01 : Byte) ≠ 0x00 ∧ (zeros 81).length ≠ 80 := by decide

theorem witness_InitMakesTheInitialEngine :
    halted.halt = true ∧ busy.halt = false ∧ ¬ (4 : SlotNo).val < busy.nctx ∧ (3 : SlotNo).val < busy.nctx := by decide

theorem witness_UpdateFeedsTheDataByteByByte :
    halted.halt = true ∧ busy.halt = false ∧ ¬ ((4 : SlotNo).val < busy.nctx ∧ [(0 : Byte)].length ≤ 2 ^ 32 - 1) ∧
    ((3 : SlotNo).val < busy.nctx ∧ ([] : Bytes).length ≤ 2 ^ 32 - 1) ∧ busy.ctx[3]? = some .idle ∧
    (∃ s : State, s.ctx[0]? = some (.active (eng (2 ^ 64 - 16) (zeros 63))) ∧
      (eng (2 ^ 64 - 16) (zeros 63)).buf.length ≤ 63 ∧
      (eng (2 ^ 64 - 16) (zeros 63)).count.toNat + 8 * [(0 : Byte)].length < 2 ^ 64) :=
  ⟨rfl, rfl, by decide, by decide, rfl, block [.active (eng (2 ^ 64 - 16) (zeros 63))] [], rfl, by decide, by decide⟩

theorem witness_OnlyCounterOverflowIsRefused :
    ∃ s : State, s.halt = false ∧ s.ctx[0]? = some (.active (eng (2 ^ 64 - 8) [])) ∧ [(0 : Byte)].length ≤ 2 ^ 32 - 1 ∧
      2 ^ 64 ≤ (eng (2 ^ 64 - 8) []).count.toNat + 8 * [(0 : Byte)].length ∧
      exec (.update 0 [0]) s = .refused .counterOverflow :=
  ⟨block [.active (eng (2 ^ 64 - 8) [])] [], rfl, rfl, by decide, by decide, rfl⟩

theorem witness_EngUpdateConsumesWholeBlocks :
    (eng (2 ^ 64 - 16) (zeros 63)).count.toNat + 8 * [(0 : Byte)].length < 2 ^ 64 := by decide

theorem witness_ByteLoopEqualsBlockLoop : (eng 504 (zeros 63)).buf.length ≤ 63 := by decide

theorem witness_ChunksMakeNoDifference :
    busy.halt = false ∧ busy.ctx[0]? = some (.active (eng 24 (ascii "foo"))) ∧
    ([0x61] ++ zeros 100).length ≤ 2 ^ 32 - 1 ∧
    (eng 24 (ascii "foo")).count.toNat + 8 * ([0x61] ++ zeros 100).length < 2 ^ 64 := by decide +kernel

theorem witness_FinalisationPadsToWholeBlocks :
    (eng 440 (zeros 55)).buf.length ≤ 63 ∧ (eng 448 (zeros 56)).buf.length ≤ 63 ∧
    (eng 504 (zeros 63)).buf.length ≤ 63 := by decide

/-- For FINAL and FINALHEX: HALT, an illegal slot, an IDLE slot, an ACTIVE slot. -/
theorem witness_FinalAnswersTheDigestAndIdles :
    halted.halt = true ∧ busy.halt = false ∧ ¬ (4 : SlotNo).val < busy.nctx ∧ (3 : SlotNo).val < busy.nctx ∧
    busy.ctx[3]? = some .idle ∧ busy.ctx[1]? = some (.active (eng 16 (ascii "fo"))) := by decide +kernel

theorem witness_FinalhexAnswersTheHexDigestAndIdles :
    halted.halt = true ∧ busy.halt = false ∧ ¬ (15 : SlotNo).val < busy.nctx ∧ (0 : SlotNo).val < busy.nctx ∧
    busy.ctx[2]? = some .idle ∧ busy.ctx[0]? = some (.active (eng 24 (ascii "foo"))) := by decide +kernel

theorem witness_CopyMakesAnEqualSlot :
    halted.halt = true ∧ busy.halt = false ∧ ¬ ((3 : SlotNo).val < busy.nctx ∧ (4 : SlotNo).val < busy.nctx) ∧
    ((3 : SlotNo).val < busy.nctx ∧ (1 : SlotNo).val < busy.nctx) ∧ busy.ctx[3]? = some .idle ∧
    busy.ctx[1]? = some (.active (eng 16 (ascii "fo"))) := by decide +kernel

theorem witness_Md5IsTheDigestOfThePaddedMessage : 8 * (zeros 64).length < 2 ^ 64 := by decide

theorem witness_SlotHoldsTheUnconsumedTail :
    FitsCounter (zeros 64) ∧ engUpdate engInit (zeros 64) = engUpdate engInit (zeros 64) := by
  constructor
  · unfold FitsCounter; decide
  · rfl

theorem witness_HexWritesHighNibbleFirst : [(0x0f : Byte), 0xf0][1]? = some 0xf0 := rfl

theorem witness_HexCanBeReadBack : [(0x0f : Byte), 0xf0][0]? = some 0x0f ∧ hex [] = hex [] := ⟨rfl, rfl⟩

/-- For HEXENC and A64ENC: HALT, an operand of the wrong length, one of the right length; header and length. -/
theorem witness_HexencAnswersHex :
    halted.halt = true ∧ busy.halt = false ∧ ¬ (zeros 15).length = 16 ∧ (zeros 16).length = 16 ∧
    (0x10 : Byte) ≠ 0x00 ∧ (zeros 17).length ≠ 16 := by decide

theorem witness_A64encAnswersTheEncoding :
    halted.halt = true ∧ busy.halt = false ∧ ¬ (zeros 17).length = 16 ∧ (zeros 16).length = 16 ∧
    (0x01 : Byte) ≠ 0x00 ∧ (zeros 15).length ≠ 16 := by decide

/-- For MD5, APR1ENC and APR1VAL: HALT, an operand longer than LENMAX, operands at LENMAX and empty. -/
theorem witness_Md5CommandAnswersTheHexDigest :
    halted.halt = true ∧ busy.halt = false ∧ ¬ (long (2 ^ 32)).length ≤ 2 ^ 32 - 1 ∧
    (long (2 ^ 32 - 1)).length ≤ 2 ^ 32 - 1 ∧ ([] : Bytes).length ≤ 2 ^ 32 - 1 := by
  refine ⟨rfl, rfl, ?_, ?_, by decide⟩ <;> simp only [long_length] <;> omega

theorem witness_DigestAndHexdigestDoNotDisturb :
    halted.halt = true ∧ busy.halt = false ∧ ¬ (4 : SlotNo).val < busy.nctx ∧ (1 : SlotNo).val < busy.nctx ∧
    busy.ctx[2]? = some .idle ∧ busy.ctx[1]? = some (.active (eng 16 (ascii "fo"))) := by decide +kernel

theorem witness_AttrAnswersTheConstants :
    halted.halt = true ∧ busy.halt = false ∧ highNibble 0x10 ≠ 0 ∧ 3 ≤ (lowNibble 0x03).val ∧
    [(0x00 : Byte)] ≠ [] := by decide

theorem witness_ReadingADigestDoesNotDisturbTheHandle :
    fresh.halt = false ∧ (3 : SlotNo).val < fresh.nctx ∧ (ascii "foo").length ≤ 2 ^ 32 - 1 ∧
    ([] : Bytes).length ≤ 2 ^ 32 - 1 := by decide +kernel

theorem witness_CopiesAreIndependent :
    busy.halt = false ∧ (0 : SlotNo) ≠ 3 ∧ (3 : SlotNo).val < busy.nctx ∧
    busy.ctx[0]? = some (.active (eng 24 (ascii "foo"))) ∧ (ascii "bar").length ≤ 2 ^ 32 - 1 ∧
    (eng 24 (ascii "foo")).count.toNat + 8 * (ascii "bar").length < 2 ^ 64 := by decide +kernel

theorem witness_AlphabetIsDotSlashDigitsLetters : 0 < 64 ∧ 63 < 64 := by decide

theorem witness_A64PlacesEachSixBits :
    (3 < 4 ∧ 0 < 1) ∧ (zeros 16).length = 16 ∧ groups[0]? = some (0, 6, 12) ∧ groups[4]? = some (4, 10, 5) ∧
    1 < 2 := by decide

theorem witness_A64IsInjective :
    (zeros 16).length = 16 ∧ a64 (zeros 16) = a64 (zeros 16) ∧ (0x2e : Byte) ∈ a64 (zeros 16) := by decide +kernel

theorem witness_Apr1encAnswersTheApr1String :
    halted.halt = true ∧ busy.halt = false ∧
    ¬ (([] : Bytes).length ≤ 2 ^ 32 - 1 ∧ (long (2 ^ 32)).length ≤ 2 ^ 32 - 1) ∧
    (([] : Bytes).length ≤ 2 ^ 32 - 1 ∧ (long (2 ^ 32 - 1)).length ≤ 2 ^ 32 - 1) := by
  refine ⟨rfl, rfl, ?_, ?_⟩ <;> simp only [long_length, List.length_nil] <;> omega

/-- For APR1VAL also both shapes of `stored`: one with an empty salt and an empty hash part; the bare prefix. -/
theorem witness_Apr1valComparesOrReportsMalformed :
    halted.halt = true ∧ busy.halt = false ∧
    ¬ ((long (2 ^ 32)).length ≤ 2 ^ 32 - 1 ∧ ([] : Bytes).length ≤ 2 ^ 32 - 1) ∧
    ((long (2 ^ 32 - 1)).length ≤ 2 ^ 32 - 1 ∧ ([] : Bytes).length ≤ 2 ^ 32 - 1) ∧
    ((0x24 : Byte) ∉ ([] : Bytes) ∧
      ascii "$apr1$$" = [0x24, 0x61, 0x70, 0x72, 0x31, 0x24] ++ ([] : Bytes) ++ [0x24] ++ ([] : Bytes)) ∧
    (∀ salt hash : Bytes, (0x24 : Byte) ∉ salt →
      ascii "$apr1$" ≠ [0x24, 0x61, 0x70, 0x72, 0x31, 0x24] ++ salt ++ [0x24] ++ hash) := by
  refine ⟨rfl, rfl, ?_, ?_, ⟨by simp, by decide +kernel⟩, ?_⟩
  · simp only [long_length, List.length_nil]; omega
  · simp only [long_length, List.length_nil]; omega
  · intro salt hash _ h
    have hl : (ascii "$apr1$").length = 6 := by decide +kernel
    have := congrArg List.length h
    simp only [hl, List.length_append, List.length_cons, List.length_nil] at this
    omega

theorem witness_OwnHashValidatesAndLongSaltsDoNot :
    (0x24 : Byte) ∉ (ascii "mYJd83wW").take 8 ∧ ((0x24 : Byte) ∉ ascii "abcdefghX" ∧ 8 < (ascii "abcdefghX").length) := by
  decide +kernel

theorem witness_CommandChangesOnlyTheSlotItNames : ∃ t, exec (.copy 3 0) busy = .next t := ⟨_, rfl⟩

theorem witness_ErrorsChangeNothing :
    (∃ t, exec (.copy 0 3) busy = .next t) ∧ Status.seq ≠ Status.ok := ⟨⟨_, rfl⟩, by decide⟩

theorem witness_ResponsesHaveTheirSizes :
    (∃ t, exec (.init 4) busy = .next t) ∧ (∃ t, exec (.hexenc (zeros 16)) busy = .next t) := ⟨⟨_, rfl⟩, ⟨_, rfl⟩⟩

theorem witness_IdleSlotRaisesSequencingError :
    busy.halt = false ∧ (Instr.copy 0 3).wf busy.nctx = true ∧ readsSlot (.copy 0 3) = some 3 ∧
    busy.ctx[3]? = some .idle := by decide +kernel

theorem witness_CommandDependsOnlyOnTheSlotItReads :
    busy.halt = fresh.halt ∧ busy.nctx = fresh.nctx ∧
    (∀ c : SlotNo, readsSlot (.digest 3) = some c → busy.ctx[c.val]? = fresh.ctx[c.val]?) ∧
    ∃ t, exec (.digest 3) busy = .next t := by
  refine ⟨rfl, rfl, ?_, ⟨_, rfl⟩⟩
  intro c h
  cases h
  rfl

theorem witness_CommandsOnDifferentSlotsCommute :
    (∀ c, writesSlot (.copy 3 0) = some c → writesSlot (.update 1 [0x61]) ≠ some c ∧
      readsSlot (.update 1 [0x61]) ≠ some c) ∧
    (∀ c, writesSlot (.update 1 [0x61]) = some c → readsSlot (.copy 3 0) ≠ some c) ∧
    ∃ s1 s2, exec (.copy 3 0) busy = .next s1 ∧ exec (.update 1 [0x61]) s1 = .next s2 := by
  refine ⟨?_, ?_, ⟨_, _, rfl, rfl⟩⟩
  · intro c h; cases h; decide
  · intro c h; cases h; decide

theorem witness_ResetMeetsTheInvariant : (1 ≤ 1 ∧ 1 ≤ 16) ∧ (1 ≤ 16 ∧ 16 ≤ 16) := by decide

/-- A state with an ACTIVE slot that meets the invariant, and a step from it. -/
theorem witness_StepKeepsTheInvariant :
    Inv (block [.active engInit] [.frame [0x03, 0x00]]) ∧
    ∃ t, step (block [.active engInit] [.frame [0x03, 0x00]]) = .next t := by
  refine ⟨⟨by decide, by decide, rfl, ?_⟩, ⟨_, rfl⟩⟩
  intro v hv
  rw [List.mem_singleton.mp hv]
  exact ⟨[], by unfold FitsCounter; decide, by decide +kernel⟩

/-- A reachable state with an ACTIVE slot. -/
theorem witness_ReachableStatesMeetTheInvariant :
    ∃ s, 1 ≤ 1 ∧ 1 ≤ 16 ∧ Reachable 1 s ∧ Slot.active engInit ∈ s.ctx :=
  ⟨_, by decide, by decide, .step (.offer (.frame [0x01, 0x00]) .reset) rfl, List.mem_singleton.mpr rfl⟩

theorem witness_BlockSimulatesTheMessageMachine :
    ∃ m m' : MsgState, m.Ok ∧ m.ctx = [some [0x61], none] ∧ msgStep m = .next m' := by
  refine ⟨{ ctx := [some [0x61], none], halt := false, commands := [.frame [0x06, 0x00]], responses := [] }, _, ?_, rfl, rfl⟩
  intro v hv data hd
  rcases List.mem_cons.mp hv with h | h
  · rw [h] at hd; cases hd; unfold FitsCounter; decide
  · rw [List.mem_singleton.mp h] at hd; cases hd

end Sys2Proof.Tests
end

/-! ## PROOFS. The state after reset (spec/10_state.md) -/

namespace Sys2Proof.Machine

theorem State.resetOf_getElem? {n k : Nat} (h : k < n) : (State.resetOf n).ctx[k]? = some .idle := by
  rw [State.resetOf_ctx, List.getElem?_replicate_of_lt h]

/-- Settles O1: the fields of `State.resetOf` as the state's laws give them, and the constants by evaluation. -/
theorem resetLeavesSlotsIdleAndHaltClear : Obligations.ResetLeavesSlotsIdleAndHaltClear := fun n =>
  ⟨State.resetOf_nctx n, fun _ hk => State.resetOf_getElem? hk, State.resetOf_halt n, rfl, rfl, rfl⟩

end Sys2Proof.Machine

/-! ## PROOFS. Frames (spec/30_encoding.md R71 to R74, R77, R82) -/

namespace Sys2Proof

open Machine

/-! ### What the operands of a frame are read from -/

theorem takeVar_finish_inv {f : Bytes → Instr} {rest : Bytes} {j : Instr}
    (h : (do let (a, rest) ← takeVar rest; finish (f a) rest) = .ok j) :
    ∃ a, rest = encodeVar a ∧ a.length ≤ Config.lenMax ∧ j = f a := by
  obtain ⟨⟨a, b⟩, hv, h⟩ := bind_ok h
  obtain ⟨rfl, rfl⟩ := finish_inv h
  obtain ⟨rfl, ha⟩ := takeVar_inv hv
  exact ⟨a, List.append_nil _, ha, rfl⟩

theorem takeVar_takeVar_finish_inv {f : Bytes → Bytes → Instr} {rest : Bytes} {j : Instr}
    (h : (do let (a, rest) ← takeVar rest; let (b, rest) ← takeVar rest; finish (f a b) rest) = .ok j) :
    ∃ a b, rest = encodeVar a ++ encodeVar b ∧ a.length ≤ Config.lenMax ∧ b.length ≤ Config.lenMax ∧ j = f a b := by
  obtain ⟨⟨a, tl⟩, hv, h⟩ := bind_ok h
  obtain ⟨b, rfl, hb, rfl⟩ := takeVar_finish_inv h
  obtain ⟨rfl, ha⟩ := takeVar_inv hv
  exact ⟨a, b, rfl, ha, hb, rfl⟩

theorem takeFix_finish_inv {k : Nat} {f : Bytes → Instr} {rest : Bytes} {j : Instr}
    (h : (do let (a, rest) ← takeFix k rest; finish (f a) rest) = .ok j) :
    rest.length = k ∧ j = f rest := by
  obtain ⟨⟨a, b⟩, hk, h⟩ := bind_ok h
  obtain ⟨rfl, rfl⟩ := finish_inv h
  obtain ⟨rfl, ha⟩ := takeFix_inv hk
  rw [List.append_nil]
  exact ⟨ha, rfl⟩

/-- The frame that `decodeBody` read is the frame of the command it answers, and that command is legal. -/
theorem decodeBody_inv {nctx : Nat} {opc : Byte} {cd cs : Fin 16} {rest : Bytes} {i : Instr}
    (h : decodeBody nctx opc cd cs rest = .ok i) : encode i = header opc cd cs ++ rest ∧ i.wf nctx = true := by
  have opcode : ∀ {n : Nat}, opc.toNat = n → opc = BitVec.ofNat 8 n := by
    rintro _ rfl; simp
  unfold decodeBody at h
  split at h
  case h_15 => cases h
  all_goals
    obtain rfl := opcode ‹_›
    obtain ⟨_, hf, hops⟩ := bind_ok h
  case h_1 | h_3 | h_5 =>
    obtain ⟨rfl, hcd⟩ := formatD_inv hf
    obtain ⟨rfl, rfl⟩ := finish_inv hops
    exact ⟨rfl, hcd⟩
  case h_2 =>
    obtain ⟨rfl, hcd⟩ := formatD_inv hf
    obtain ⟨data, rfl, hdata, rfl⟩ := takeVar_finish_inv hops
    exact ⟨rfl, by simp [Instr.wf, Bytes.isVar, hcd, hdata]⟩
  case h_4 =>
    obtain ⟨hcd, hcs⟩ := formatDS_inv hf
    obtain ⟨rfl, rfl⟩ := finish_inv hops
    exact ⟨rfl, by simp [Instr.wf, hcd, hcs]⟩
  case h_6 | h_7 =>
    obtain ⟨rfl, hcs⟩ := formatS_inv hf
    obtain ⟨rfl, rfl⟩ := finish_inv hops
    exact ⟨rfl, hcs⟩
  case h_8 =>
    obtain ⟨rfl, rfl⟩ := formatN_inv hf
    obtain ⟨data, rfl, hdata, rfl⟩ := takeVar_finish_inv hops
    exact ⟨rfl, by simp [Instr.wf, Bytes.isVar, hdata]⟩
  case h_9 =>
    obtain ⟨rfl, rfl⟩ := formatN_inv hf
    obtain ⟨⟨state, block⟩, hfix, hops⟩ := bind_ok hops
    obtain ⟨hblock, rfl⟩ := takeFix_finish_inv hops
    obtain ⟨rfl, hstate⟩ := takeFix_inv hfix
    exact ⟨rfl, by simp [Instr.wf, Bytes.isFix, hstate, hblock]⟩
  case h_10 | h_11 =>
    obtain ⟨rfl, rfl⟩ := formatN_inv hf
    obtain ⟨hdg, rfl⟩ := takeFix_finish_inv hops
    exact ⟨rfl, by simp [Instr.wf, Bytes.isFix, hdg]⟩
  case h_12 | h_13 =>
    obtain ⟨rfl, rfl⟩ := formatN_inv hf
    obtain ⟨x, y, rfl, hx, hy, rfl⟩ := takeVar_takeVar_finish_inv hops
    exact ⟨rfl, by simp [Instr.wf, Bytes.isVar, hx, hy]⟩
  case h_14 =>
    obtain ⟨rfl, rfl⟩ := formatSel_inv hf
    obtain ⟨rfl, rfl⟩ := finish_inv hops
    exact ⟨rfl, rfl⟩

theorem encode_of_decodeFrame {nctx : Nat} {f : Bytes} {i : Instr} (h : decodeFrame nctx f = .ok i) :
    encode i = f ∧ i.wf nctx = true := by
  unfold decodeFrame at h
  split at h
  · simpa [header] using decodeBody_inv h
  · cases h

/-- The length R82 gives the frame of a command. -/
def Instr.frameLength : Instr → Nat
  | .init _ | .final _ | .copy _ _ | .finalhex _ | .digest _ | .hexdigest _ | .attr _ => 2
  | .update _ data | .md5 data => 2 + 4 + data.length
  | .xform _ _ => 82
  | .hexenc _ | .a64enc _ => 18
  | .apr1enc x y | .apr1val x y => 2 + 4 + x.length + 4 + y.length

@[simp] theorem encodeVar_length (b : Bytes) : (encodeVar b).length = 4 + b.length := by
  simp [encodeVar]

theorem encode_length {nctx : Nat} {i : Instr} (h : i.wf nctx = true) : (encode i).length = i.frameLength := by
  cases i with
  | init | final | copy | finalhex | digest | hexdigest | attr => rfl
  | update | md5 | apr1enc | apr1val => simp [encode, header, Instr.frameLength]; omega
  | hexenc dg | a64enc dg =>
    have hdg : dg.length = 16 := of_decide_eq_true h
    simp [encode, header, Instr.frameLength, hdg]
  | xform state block =>
    obtain ⟨hstate, hblock⟩ : state.length = 16 ∧ block.length = 64 := by
      simpa [Instr.wf, Bytes.isFix] using h
    simp [encode, header, Instr.frameLength, hstate, hblock]

/-- Settles O11: the frame is the one the encoder writes for the command, whose length its operands give. -/
theorem frameLengthFollowsFromTheOperands : Obligations.FrameLengthFollowsFromTheOperands := by
  intro nctx f i h
  obtain ⟨rfl, hw⟩ := encode_of_decodeFrame h
  cases i <;> exact encode_length hw

/-- What follows a check that succeeds. -/
theorem bind_of_ok {ε α β : Type} {x : Except ε α} {a : α} (h : x = .ok a) (f : α → Except ε β) :
    (x >>= f) = f a := by
  rw [h]; rfl

/-- A legal command's frame with bytes after it is read up to those bytes, which then decide (R74). -/
theorem decodeFrame_encode_append {nctx : Nat} {i : Instr} (h : i.wf nctx = true) (rest : Bytes) :
    decodeFrame nctx (encode i ++ rest) = finish i rest := by
  cases i with
  | init cd | final cd | finalhex cd =>
    exact (decodeFrame_header ..).trans (bind_of_ok (formatD_legal h) _)
  | digest cs | hexdigest cs =>
    exact (decodeFrame_header ..).trans (bind_of_ok (formatS_legal h) _)
  | copy cd cs =>
    obtain ⟨hcd, hcs⟩ := Bool.and_eq_true_iff.mp h
    exact (decodeFrame_header ..).trans (bind_of_ok (formatDS_legal hcd hcs) _)
  | attr sel =>
    cases sel <;> exact decodeFrame_header ..
  | update cd data =>
    obtain ⟨hcd, hdata⟩ := Bool.and_eq_true_iff.mp h
    rw [encode, List.append_assoc, decodeFrame_header]
    exact (bind_of_ok (formatD_legal hcd) _).trans (bind_of_ok (takeVar_encodeVar (of_decide_eq_true hdata) rest) _)
  | md5 data =>
    rw [encode, List.append_assoc, decodeFrame_header]
    exact bind_of_ok (takeVar_encodeVar (of_decide_eq_true h) rest) _
  | hexenc dg | a64enc dg =>
    rw [encode, List.append_assoc, decodeFrame_header]
    exact bind_of_ok (takeFix_append_of_length (of_decide_eq_true h) rest) _
  | xform state block =>
    obtain ⟨hstate, hblock⟩ := Bool.and_eq_true_iff.mp h
    rw [encode, List.append_assoc, List.append_assoc, decodeFrame_header]
    exact (bind_of_ok (takeFix_append_of_length (of_decide_eq_true hstate) _) _).trans
      (bind_of_ok (takeFix_append_of_length (of_decide_eq_true hblock) rest) _)
  | apr1enc x y | apr1val x y =>
    obtain ⟨hx, hy⟩ := Bool.and_eq_true_iff.mp h
    rw [encode, List.append_assoc, List.append_assoc, decodeFrame_header]
    exact (bind_of_ok (takeVar_encodeVar (of_decide_eq_true hx) _) _).trans
      (bind_of_ok (takeVar_encodeVar (of_decide_eq_true hy) rest) _)

theorem decodeFrame_encode {nctx : Nat} {i : Instr} (h : i.wf nctx = true) :
    decodeFrame nctx (encode i) = .ok i := by
  simpa [finish_nil] using decodeFrame_encode_append h []

/-! ### Illegal frames (R77) -/

theorem isIllegal_iff {nctx : Nat} {f : Bytes} : IsIllegal nctx f ↔ ∀ i, i.wf nctx = true → encode i ≠ f := by
  constructor
  · rintro ⟨why, h⟩ i hw rfl
    cases (decodeFrame_encode hw).symm.trans h
  · intro h
    cases hd : decodeFrame nctx f with
    | error why => exact ⟨why, hd⟩
    | ok i => exact absurd (encode_of_decodeFrame hd).1 (h i (encode_of_decodeFrame hd).2)

/-- Bytes after the last operand (R74, R77). -/
theorem isIllegal_encode_append {nctx : Nat} {i : Instr} (h : i.wf nctx = true) {rest : Bytes} (hrest : rest ≠ []) :
    IsIllegal nctx (encode i ++ rest) := by
  obtain ⟨x, more, rfl⟩ := List.exists_cons_of_ne_nil hrest
  exact ⟨.trailingBytes, decodeFrame_encode_append h _⟩

/-- A frame cut short is none: what is left of it would be a frame with bytes after it. -/
theorem isIllegal_take_encode {nctx : Nat} {i : Instr} (h : i.wf nctx = true) {k : Nat} (hk : k < (encode i).length) :
    IsIllegal nctx ((encode i).take k) := by
  refine isIllegal_iff.mpr fun j hj hcut => ?_
  have hrest : (encode i).drop k ≠ [] := by simpa using hk
  have hi : IsIllegal nctx (encode i) := by
    simpa [hcut] using isIllegal_encode_append hj hrest
  exact isIllegal_iff.mp hi i h rfl

/-- What R73 asks of CD and CS in the frame of a command with opcode `opc`: its five header formats. -/
def HeaderLegal (nctx : Nat) (opc : Byte) (cd cs : Fin 16) : Prop :=
  match opc.toNat with
  | 0x01 | 0x02 | 0x03 | 0x05 => cs = 0 ∧ cd.val < nctx
  | 0x04 => cd.val < nctx ∧ cs.val < nctx
  | 0x06 | 0x07 => cd = 0 ∧ cs.val < nctx
  | 0x08 | 0x09 | 0x0A | 0x0B | 0x0C | 0x0D => cd = 0 ∧ cs = 0
  | 0x0E => cd = 0 ∧ cs.val < 3
  | _ => False

section HeaderFormats

variable {nctx : Nat} {o : Byte} {cd cs : Fin 16}

theorem not_headerLegal_of_reservedOpcode (ho : o = 0x00 ∨ 0x0F ≤ o) : ¬ HeaderLegal nctx o cd cs := by
  have hval : o.toNat = 0 ∨ 15 ≤ o.toNat := by bv_omega
  intro hl
  unfold HeaderLegal at hl
  split at hl
  case h_15 => exact hl
  all_goals omega

/-- Header format D. -/
theorem headerLegal_slotInCd (ho : o ∈ [(0x01 : Byte), 0x02, 0x03, 0x05]) :
    HeaderLegal nctx o cd cs ↔ cs = 0 ∧ cd.val < nctx := by
  simp only [List.mem_cons, List.not_mem_nil, or_false] at ho
  obtain rfl | rfl | rfl | rfl := ho <;> rfl

/-- Header format S. -/
theorem headerLegal_slotInCs (ho : o ∈ [(0x06 : Byte), 0x07]) :
    HeaderLegal nctx o cd cs ↔ cd = 0 ∧ cs.val < nctx := by
  simp only [List.mem_cons, List.not_mem_nil, or_false] at ho
  obtain rfl | rfl := ho <;> rfl

/-- Header format N. -/
theorem headerLegal_noFields (hlo : 0x08 ≤ o) (hhi : o ≤ 0x0D) :
    HeaderLegal nctx o cd cs ↔ cd = 0 ∧ cs = 0 := by
  have ho : o = 0x08 ∨ o = 0x09 ∨ o = 0x0A ∨ o = 0x0B ∨ o = 0x0C ∨ o = 0x0D := by bv_omega
  obtain rfl | rfl | rfl | rfl | rfl | rfl := ho <;> rfl

end HeaderFormats

/-- The frame of a legal command begins with a header R73 allows. -/
theorem encode_headerLegal {nctx : Nat} {i : Instr} (h : i.wf nctx = true) :
    ∃ opc cd cs rest, encode i = header opc cd cs ++ rest ∧ HeaderLegal nctx opc cd cs := by
  cases i with
  | init cd | final cd | finalhex cd => exact ⟨_, cd, 0, [], rfl, rfl, of_decide_eq_true h⟩
  | update cd data => exact ⟨_, cd, 0, _, rfl, rfl, of_decide_eq_true (Bool.and_eq_true_iff.mp h).1⟩
  | copy cd cs =>
    obtain ⟨hcd, hcs⟩ := Bool.and_eq_true_iff.mp h
    exact ⟨_, cd, cs, [], rfl, of_decide_eq_true hcd, of_decide_eq_true hcs⟩
  | digest cs | hexdigest cs => exact ⟨_, 0, cs, [], rfl, rfl, of_decide_eq_true h⟩
  | md5 | xform | hexenc | a64enc | apr1enc | apr1val => exact ⟨_, 0, 0, _, rfl, rfl, rfl⟩
  | attr sel => exact ⟨_, 0, sel.field, [], rfl, rfl, by cases sel <;> decide⟩

theorem isIllegal_of_not_headerLegal {nctx : Nat} {o b : Byte} {body : Bytes}
    (h : ¬ HeaderLegal nctx o (highNibble b) (lowNibble b)) : IsIllegal nctx (o :: b :: body) := by
  refine isIllegal_iff.mpr fun i hw hi => h ?_
  obtain ⟨opc, cd, cs, rest, he, hl⟩ := encode_headerLegal hw
  obtain ⟨rfl, rfl, rfl⟩ : opc = o ∧ ofNibbles cd cs = b ∧ rest = body := by
    simpa [header, hi] using (he.symm.trans hi)
  simpa using hl

/-- An error that follows a check is an error whether the check succeeds or not. -/
theorem bind_bind_error {ε α β γ : Type} {y : Except ε β} {e : ε} (h : y = .error e) (x : Except ε α)
    (f : β → Except ε γ) : ∃ e', (x >>= fun _ => y >>= f) = .error e' := by
  cases x with
  | error e' => exact ⟨e', rfl⟩
  | ok a => exact ⟨e, by rw [h]; rfl⟩

theorem takeVar_le32_append (n : Word) (data : Bytes) : takeVar (le32 n ++ data) = takeFix n.toNat data := by
  simp only [le32, List.cons_append, List.nil_append, takeVar, ofLe32_le32]

/-- A first VAR operand whose length says more bytes than follow it (R77). -/
theorem isIllegal_of_short_var {nctx : Nat} {o b : Byte} {n : Word} {data : Bytes}
    (ho : o ∈ [(0x02 : Byte), 0x08, 0x0C, 0x0D]) (hn : data.length < n.toNat) :
    IsIllegal nctx (o :: b :: (le32 n ++ data)) := by
  have hvar : takeVar (le32 n ++ data) = .error .shortOperand := by
    rw [takeVar_le32_append, takeFix, if_pos hn]
  simp only [List.mem_cons, List.not_mem_nil, or_false] at ho
  obtain rfl | rfl | rfl | rfl := ho <;> exact bind_bind_error hvar _ _

/-- The step on an illegal frame answers E_ILLEGAL and changes nothing else (R77, R192). -/
theorem step_of_isIllegal {s : State} {f : Bytes} {more : List HostAct} (hh : s.halt = false)
    (hc : s.commands = .frame f :: more) (hf : IsIllegal s.nctx f) :
    ∃ t, step s = .next t ∧ t.ctx = s.ctx ∧ Answers { s with commands := more } t none [0x01] := by
  obtain ⟨why, hd⟩ := hf
  refine ⟨({ s with commands := more } : State).respond .illegal [], ?_, rfl, rfl, rfl, rfl, rfl, fun _ _ => rfl⟩
  exact (step_of_cons hc).trans (serveFrame_of_error hh hd)

/-- Settles O12: clause by clause, the header's fields by `HeaderLegal`, the operands by what is left of a legal
frame that is cut short or goes on. -/
theorem reservedAndIllFormedFramesAreIllegal : Obligations.ReservedAndIllFormedFramesAreIllegal := by
  intro nctx
  refine ⟨?_, ?_, ?_, ?_, ?_, ?_, ?_, fun o b n data => isIllegal_of_short_var, fun i k hw => isIllegal_take_encode hw,
    fun i x more hw => isIllegal_encode_append hw (List.cons_ne_nil x more), ?_, ?_⟩
  · rintro (_ | ⟨o, _ | ⟨b, body⟩⟩) hlen
    · exact ⟨_, rfl⟩
    · exact ⟨_, rfl⟩
    · simp at hlen
  · intro o b body ho
    exact isIllegal_of_not_headerLegal (not_headerLegal_of_reservedOpcode ho)
  · intro o b body ho hbad
    refine isIllegal_of_not_headerLegal fun hl => ?_
    obtain ⟨hcs, hcd⟩ := (headerLegal_slotInCd ho).mp hl
    exact hbad.elim (· hcs) hcd.not_ge
  · intro b body hbad
    refine isIllegal_of_not_headerLegal fun (hl : _ < nctx ∧ _ < nctx) => ?_
    exact hbad.elim hl.1.not_ge hl.2.not_ge
  · intro o b body ho hbad
    refine isIllegal_of_not_headerLegal fun hl => ?_
    obtain ⟨hcd, hcs⟩ := (headerLegal_slotInCs ho).mp hl
    exact hbad.elim (· hcd) hcs.not_ge
  · intro o b body hlo hhi hb
    refine isIllegal_of_not_headerLegal fun hl => hb ?_
    obtain ⟨hcd, hcs⟩ := (headerLegal_noFields hlo hhi).mp hl
    rw [← ofNibbles_nibbles b, hcd, hcs]
    rfl
  · intro b body hbad
    refine isIllegal_of_not_headerLegal fun (hl : _ = 0 ∧ _ < 3) => ?_
    exact hbad.elim (· hl.1) hl.2.not_ge
  · intro f
    exact or_iff_not_imp_left.mpr fun hnot => isIllegal_iff.mpr fun i hw hf => hnot ⟨i, hw, hf.symm⟩
  · rintro s f more rfl hh hc hf
    exact step_of_isIllegal hh hc hf

/-- A pseudo-command is no mnemonic of R73, so its expansion is what the assembler answers (R81). -/
theorem asmCommand_of_asmPseudo {m : String} {os : List AsmOperand} {p : Pseudo} (h : asmPseudo m os = some p) :
    asmCommand m os = some p.expand := by
  unfold asmPseudo at h
  split at h <;> cases h <;> rfl

/-- Settles O13: each name is a pseudo-command, whose expansion `Pseudo.expand` gives. -/
theorem pseudoCommandsExpandToOneCommand : Obligations.PseudoCommandsExpandToOneCommand := fun _ _ _ _ =>
  ⟨asmCommand_of_asmPseudo (p := .md5Init) rfl, asmCommand_of_asmPseudo (p := .md5Update _) rfl,
    asmCommand_of_asmPseudo (p := .md5Final) rfl, asmCommand_of_asmPseudo (p := .md5Encode _ _) rfl,
    asmCommand_of_asmPseudo (p := .passwordValidate _ _) rfl, asmCommand_of_asmPseudo (p := .hNew _) rfl,
    asmCommand_of_asmPseudo (p := .hUpdate _ _) rfl, asmCommand_of_asmPseudo (p := .hDigest _) rfl,
    asmCommand_of_asmPseudo (p := .hHexdigest _) rfl, asmCommand_of_asmPseudo (p := .hCopy _ _) rfl⟩

end Sys2Proof

/-! ## PROOFS. What a command answers (spec/60_exceptions.md R190 to R196) -/

namespace Sys2Proof.Machine

/-- Only the body of a command can be refused. -/
theorem State.command_refused {s : State} {i : Instr} {body : Result} {why : Refusal}
    (h : s.command i body = .refused why) : i.wf s.nctx = true ∧ body = .refused why := by
  obtain ⟨-, he⟩ | ⟨-, -, he⟩ | ⟨-, hw, he⟩ := State.command_cases s i body
  · cases he.symm.trans h
  · cases he.symm.trans h
  · exact ⟨hw, he.symm.trans h⟩

theorem State.withActive_refused {s : State} {c : SlotNo} {f : Engine → Result} {why : Refusal}
    (h : s.withActive c f = .refused why) : ∃ e, s.slot c = .active e ∧ f e = .refused why := by
  obtain ⟨-, hi⟩ | ⟨e, hs, he⟩ := State.withActive_cases s c f
  · cases hi.symm.trans h
  · exact ⟨e, hs, he.symm.trans h⟩

end Sys2Proof.Machine

namespace Sys2Proof

open Machine

variable {s : State} {i : Instr} {c : SlotNo}

theorem Answers.respond (s : State) (st : Status) (r : Bytes) : Answers s (s.respond st r) none (st.code :: r) :=
  ⟨rfl, rfl, rfl, rfl, fun _ _ => rfl⟩

/-- Writing one slot and responding has the frame of a command that names that slot (R59). -/
theorem Answers.setSlot_respond (s : State) (c : SlotNo) (v : Slot) (st : Status) (r : Bytes) :
    Answers s ((s.setSlot c v).respond st r) (some c) (st.code :: r) where
  halt := rfl
  nctx := State.setSlot_nctx s c v
  commands := rfl
  responses := rfl
  slots _ hk := List.getElem?_set_ne (hk c rfl).symm

theorem onlyAnswers_of_exec {st : Status} {r : Bytes} (h : exec i s = .next (s.respond st r)) :
    OnlyAnswers i s (st.code :: r) :=
  ⟨_, h, .respond s st r⟩

theorem answersAndSets_of_exec {v : Slot} {st : Status} {r : Bytes} (hc : c.val < s.nctx)
    (h : exec i s = .next ((s.setSlot c v).respond st r)) : AnswersAndSets i s c v (st.code :: r) :=
  ⟨_, h, List.getElem?_set_self hc, .setSlot_respond s c v st r⟩

/-- HALT and legality come first for every command (R196): what is left to show is the legal case. -/
theorem checksFirst_of_wf {legal rest : Prop} (hw : i.wf s.nctx = true ↔ legal)
    (h : s.halt = false → i.wf s.nctx = true → rest) : ChecksFirst i s legal rest :=
  ⟨fun hh => onlyAnswers_of_exec (exec_halted i hh),
    fun hh hl => onlyAnswers_of_exec (exec_illegal hh (Bool.eq_false_iff.mpr (mt hw.mp hl))),
    fun hh hl => h hh (hw.mpr hl)⟩

/-- E_SEQ on an IDLE slot, for every command that reads one (R193): what is left to show is the ACTIVE case. -/
theorem needsActive_of_readsSlot {rest : Engine → Prop} (hh : s.halt = false) (hw : i.wf s.nctx = true)
    (hr : readsSlot i = some c) (h : ∀ e, s.slot c = .active e → rest e) : NeedsActive i s c rest :=
  ⟨fun hs => onlyAnswers_of_exec (exec_seq hh hw hr (State.slot_of_getElem? s c _ hs)),
    fun e hs => h e (State.slot_of_getElem? s c _ hs)⟩

theorem SlotNo.legal_iff {nctx : Nat} {c : SlotNo} : SlotNo.legal nctx c = true ↔ c.val < nctx :=
  decide_eq_true_iff

theorem Bytes.isVar_iff {b : Bytes} : Bytes.isVar b = true ↔ b.length ≤ 2 ^ 32 - 1 :=
  decide_eq_true_iff

theorem wf_update_iff {nctx : Nat} {cd : SlotNo} {data : Bytes} :
    (Instr.update cd data).wf nctx = true ↔ cd.val < nctx ∧ data.length ≤ 2 ^ 32 - 1 :=
  Bool.and_eq_true_iff.trans (and_congr SlotNo.legal_iff Bytes.isVar_iff)

theorem wf_copy_iff {nctx : Nat} {cd cs : SlotNo} :
    (Instr.copy cd cs).wf nctx = true ↔ cd.val < nctx ∧ cs.val < nctx :=
  Bool.and_eq_true_iff.trans (and_congr SlotNo.legal_iff SlotNo.legal_iff)

end Sys2Proof

/-! ## PROOFS. DigestEngine (spec/41_digest_engine.md) -/

namespace Sys2Proof

open Machine

/-! ### INIT, FINAL, COPY (R121, R124, R126) -/

/-- Settles O20: `exec_init` after the checks that come first. -/
theorem initMakesTheInitialEngine : Obligations.InitMakesTheInitialEngine := fun _ _ =>
  ⟨rfl, checksFirst_of_wf SlotNo.legal_iff fun hh hw =>
    answersAndSets_of_exec (SlotNo.legal_iff.mp hw) (exec_init hh hw)⟩

/-- Settles O27: `exec_final` on an ACTIVE slot, after the checks that come first. -/
theorem finalAnswersTheDigestAndIdles : Obligations.FinalAnswersTheDigestAndIdles := fun _ _ =>
  ⟨rfl, checksFirst_of_wf SlotNo.legal_iff fun hh hw => needsActive_of_readsSlot hh hw rfl fun e hs =>
    ⟨engFinal_length e, answersAndSets_of_exec (SlotNo.legal_iff.mp hw) (exec_final hh hw hs)⟩⟩

/-- Writing to one slot what another holds leaves the latter as it was, also when they are one slot (R126). -/
theorem getElem?_setSlot_copy {s : State} {cd cs : SlotNo} {v : Slot} (hs : s.ctx[cs.val]? = some v) :
    (s.setSlot cd v).ctx[cs.val]? = some v := by
  by_cases hne : cd.val = cs.val
  · rw [State.setSlot_ctx, hne]
    exact List.getElem?_set_self (State.lt_of_getElem? s cs v hs)
  · rwa [State.setSlot_ctx, List.getElem?_set_ne hne]

/-- Settles O28: `exec_copy` on an ACTIVE source, which the write to the destination leaves as it was. -/
theorem copyMakesAnEqualSlot : Obligations.CopyMakesAnEqualSlot := fun s cd cs =>
  ⟨rfl, checksFirst_of_wf wf_copy_iff fun hh hw => needsActive_of_readsSlot hh hw rfl fun e hs => by
    obtain ⟨hcd, hcs⟩ := wf_copy_iff.mp hw
    have hsrc : s.ctx[cs.val]? = some (.active e) := hs ▸ State.getElem?_of_lt s cs hcs
    exact ⟨_, exec_copy hh hw hs, List.getElem?_set_self hcd, getElem?_setSlot_copy hsrc, .setSlot_respond ..⟩⟩

/-! ### UPDATE (R122, R123) -/

section ByteLoop

variable {e : Engine} {x : Byte} {xs : Bytes}

theorem feedByte_of_last (h : e.buf.length = 63) :
    feedByte e x = { e with words := bt e.words (e.buf ++ [x]), buf := [] } := by
  simp [feedByte, h]

theorem feedByte_of_room (h : e.buf.length < 63) : feedByte e x = { e with buf := e.buf ++ [x] } := by
  simp [feedByte, h.ne]

theorem feedByte_buf_length_le (h : e.buf.length ≤ 63) : (feedByte e x).buf.length ≤ 63 := by
  obtain hlast | hroom : e.buf.length = 63 ∨ e.buf.length < 63 := by omega
  · simp [feedByte_of_last hlast]
  · simpa [feedByte_of_room hroom] using hroom

@[simp] theorem feedByte_count (e : Engine) (x : Byte) : (feedByte e x).count = e.count := by
  simp only [feedByte]
  split <;> rfl

/-- Feeding one byte and updating with the rest is one update, but for the counter. -/
theorem engUpdate_feedByte (h : e.buf.length ≤ 63) :
    { engUpdate (feedByte e x) xs with count := e.count } = { engUpdate e (x :: xs) with count := e.count } := by
  obtain hlast | hroom : e.buf.length = 63 ∨ e.buf.length < 63 := by omega
  · have hm : e.buf ++ x :: xs = (e.buf ++ [x]) ++ xs := by simp
    have hblock : (e.buf ++ [x]).length = 64 := by simp [hlast]
    have hq : ((e.buf ++ [x]) ++ xs).length / 64 = xs.length / 64 + 1 := by
      rw [List.length_append, hblock]; omega
    rw [feedByte_of_last hlast]
    simp only [engUpdate, hm, hq, btBlocks, List.nil_append, List.take_left' hblock, List.drop_left' hblock,
      Nat.mul_add, Nat.mul_one, Nat.add_comm _ 64, ← List.drop_drop]
  · rw [feedByte_of_room hroom]
    simp only [engUpdate, List.append_assoc, List.singleton_append]

/-- The byte loop of R122 leaves the words and the buffer of R123's block form, and does not touch the counter. -/
theorem foldl_feedByte (data : Bytes) (h : e.buf.length ≤ 63) :
    data.foldl feedByte e = { engUpdate e data with count := e.count } := by
  induction data generalizing e with
  | nil => simp [engUpdate, btBlocks, Nat.div_eq_of_lt (show e.buf.length < 64 by omega)]
  | cons x xs ih =>
    rw [List.foldl_cons, ih (feedByte_buf_length_le h), feedByte_count, engUpdate_feedByte h]

end ByteLoop

/-- One pass of R122's loop on the words and the buffer alone. -/
abbrev feedPair (st : DigestState × Bytes) (x : Byte) : DigestState × Bytes :=
  if st.2.length = 63 then (bt st.1 (st.2 ++ [x]), []) else (st.1, st.2 ++ [x])

theorem feedPair_feedByte (e : Engine) (x : Byte) :
    feedPair (e.words, e.buf) x = ((feedByte e x).words, (feedByte e x).buf) := by
  by_cases h : e.buf.length = 63 <;> simp [feedPair, feedByte, h]

theorem foldl_feedPair {e : Engine} (data : Bytes) (h : e.buf.length ≤ 63) :
    data.foldl feedPair (e.words, e.buf) = ((engUpdate e data).words, (engUpdate e data).buf) := by
  rw [List.foldl_hom (fun e : Engine => (e.words, e.buf)) feedPair_feedByte, foldl_feedByte data h]

/-- Settles O21: `exec_update` on an ACTIVE slot, after the checks that come first; its engine value is the one the
byte loop gives. -/
theorem updateFeedsTheDataByteByByte : Obligations.UpdateFeedsTheDataByteByByte := by
  intro s cd data
  refine ⟨(List.append_assoc ..).symm, checksFirst_of_wf wf_update_iff fun hh hw =>
    needsActive_of_readsSlot hh hw rfl fun e hs hbuf hlim => ?_⟩
  refine ⟨(engUpdate e data).count, engUpdate_count_toNat e data hlim, ?_⟩
  rw [foldl_feedPair data hbuf]
  exact answersAndSets_of_exec (wf_update_iff.mp hw).1 (exec_update hh hw hs hlim)

/-! ### Refusal (R127) -/

/-- What a refused command is: an UPDATE beyond the counter limit. -/
theorem exec_refused {i : Instr} {s : State} {why : Refusal} (h : exec i s = .refused why) :
    ∃ cd data e, i = .update cd data ∧ s.ctx[cd.val]? = some (.active e) ∧
      2 ^ 64 ≤ e.count.toNat + 8 * data.length ∧ why = .counterOverflow := by
  cases i with
  | update cd data =>
    obtain ⟨hw, hbody⟩ := State.command_refused h
    obtain ⟨e, hs, he⟩ := State.withActive_refused hbody
    split at he
    case isTrue => cases he
    case isFalse hlim =>
      cases he
      exact ⟨cd, data, e, rfl, hs ▸ State.getElem?_of_lt s cd (wf_update_iff.mp hw).1, not_lt.mp hlim, rfl⟩
  | init | md5 | xform | hexenc | a64enc | apr1enc | attr => cases (State.command_refused h).2
  | final | copy | finalhex | digest | hexdigest =>
    obtain ⟨e, -, he⟩ := State.withActive_refused (State.command_refused h).2
    cases he
  | apr1val password stored =>
    have hbody := (State.command_refused h).2
    split at hbody <;> cases hbody

/-- Settles O22: `exec_update_overflow`, and `exec_refused` for the converse. -/
theorem onlyCounterOverflowIsRefused : Obligations.OnlyCounterOverflowIsRefused :=
  ⟨fun s cd _ _ hh hs hlen hlim =>
    exec_update_overflow hh (wf_update_iff.mpr ⟨State.lt_of_getElem? s cd _ hs, hlen⟩)
      (State.slot_of_getElem? s cd _ hs) hlim.not_gt,
    fun _ _ _ => exec_refused⟩

/-! ### Finalisation (R125) -/

theorem btBlocks_succ (q : Nat) (s : DigestState) (m : Bytes) :
    btBlocks (q + 1) s m = bt (btBlocks q s m) ((m.drop (64 * q)).take 64) :=
  btBlocks_add q 1 s m

/-- The model's recursion over blocks is the loop over block numbers. -/
theorem btBlocks_eq_foldl (q : Nat) (s : DigestState) (m : Bytes) :
    btBlocks q s m = (List.range q).foldl (fun s j => bt s ((m.drop (64 * j)).take 64)) s := by
  induction q with
  | zero => rfl
  | succ q ih => rw [btBlocks_succ, ih, List.range_succ, List.foldl_concat]

theorem btBlocks_eq_overBlocks (s : DigestState) (m : Bytes) : btBlocks (m.length / 64) s m = overBlocks s m :=
  btBlocks_eq_foldl _ s m

theorem engFinal_eq_overBlocks (e : Engine) :
    engFinal e = (overBlocks e.words (e.buf ++ pad e.count e.buf.length)).bytes :=
  congrArg DigestState.bytes (btBlocks_eq_overBlocks e.words _)

/-- The least number of zeros, by the two cases of R125. -/
theorem padZeros_of_le {n : Nat} (h : n ≤ 63) : padZeros n = if n ≤ 55 then 55 - n else 119 - n := by
  unfold padZeros
  split <;> omega

/-- Settles O26: the padding has R125's number of zeros, so the message is one or two blocks, which `engFinal`
consumes in order. -/
theorem finalisationPadsToWholeBlocks : Obligations.FinalisationPadsToWholeBlocks := by
  intro e hbuf
  have hpad : pad e.count e.buf.length = [0x80] ++
      List.replicate (if e.buf.length ≤ 55 then 55 - e.buf.length else 119 - e.buf.length) 0x00 ++ le64 e.count := by
    rw [pad, padZeros_of_le hbuf]
    rfl
  refine ⟨?_, ?_, engFinal_length e⟩
  · simp only [List.length_append, List.length_singleton, List.length_replicate, le64_length]
    split <;> omega
  · rw [← hpad]
    exact engFinal_eq_overBlocks e

end Sys2Proof

/-! ## PROOFS. Apr1Codec (spec/42_apr1_codec.md) -/

namespace Sys2Proof

open Machine

/-! ### The alphabet (R140) -/

theorem alphabet_eq_map_a64Char :
    alphabet.map (fun c => BitVec.ofNat 8 c.toNat) = (List.range 64).map a64Char := by decide +kernel

/-- Settles O40: the string's characters are those of `a64Char`, in order. -/
theorem alphabetIsDotSlashDigitsLetters : Obligations.AlphabetIsDotSlashDigitsLetters := by
  refine ⟨by simpa using congrArg List.length alphabet_eq_map_a64Char, fun x hx => ?_⟩
  rw [← List.getElem?_map, alphabet_eq_map_a64Char]
  simp [hx]

/-! ### A64 (R141 to R143) -/

/-- Packing a group is base 256, since a byte shifted past the others shares no bit with them (R142). -/
theorem packGroup_eq (d : Bytes) (i j k : Nat) :
    packGroup d i j k = (d.getD i 0).toNat * 65536 + (d.getD j 0).toNat * 256 + (d.getD k 0).toNat := by
  have hj := (d.getD j 0).isLt
  have hk := (d.getD k 0).isLt
  have hlow : (d.getD j 0).toNat <<< 8 + (d.getD k 0).toNat < 2 ^ 16 := by
    rw [Nat.shiftLeft_eq]; omega
  rw [packGroup, Nat.or_assoc, ← Nat.shiftLeft_add_eq_or_of_lt hk, ← Nat.shiftLeft_add_eq_or_of_lt hlow,
    Nat.shiftLeft_eq, Nat.shiftLeft_eq]
  omega

/-- The four characters of a group of three bytes. -/
def groupChars (d : Bytes) (p : Nat × Nat × Nat) : Bytes := to64 (packGroup d p.1 p.2.1 p.2.2) 4

@[simp] theorem groupChars_length (d : Bytes) (p : Nat × Nat × Nat) : (groupChars d p).length = 4 :=
  to64_length _ 4

/-- A64 is the groups in order, then byte 11 alone (R143). -/
theorem a64_eq_groups (d : Bytes) : a64 d = groups.flatMap (groupChars d) ++ to64 (d.getD 11 0).toNat 2 := by
  simp only [a64, groups, groupChars, List.flatMap_cons, List.flatMap_nil, List.append_nil, List.append_assoc]

/-- Of blocks that all have `n` elements, element `n * g + j` is element `j` of block `g`. -/
theorem getElem?_flatMap_of_length {α β : Type} {f : α → List β} {n : Nat} (hf : ∀ x, (f x).length = n)
    {l : List α} {g j : Nat} {x : α} (hx : l[g]? = some x) (hj : j < n) :
    (l.flatMap f)[n * g + j]? = (f x)[j]? := by
  induction l generalizing g with
  | nil => simp at hx
  | cons y ys ih =>
    rw [List.flatMap_cons]
    cases g with
    | zero =>
      obtain rfl : y = x := by simpa using hx
      rw [Nat.mul_zero, Nat.zero_add, List.getElem?_append_left (by rwa [hf])]
    | succ g =>
      rw [List.getElem?_append_right (by rw [hf, Nat.mul_succ]; omega), hf,
        show n * (g + 1) + j - n = n * g + j by rw [Nat.mul_succ]; omega]
      exact ih (by simpa using hx)

theorem flatMap_groupChars_length (d : Bytes) : (groups.flatMap (groupChars d)).length = 20 := by
  simp [groups]

/-- Character `4g + j` of A64 is six bits of group `g`. -/
theorem a64_getElem?_group {g j : Nat} {p : Nat × Nat × Nat} (d : Bytes) (hg : groups[g]? = some p) (hj : j < 4) :
    (a64 d)[4 * g + j]? = some (a64Char (packGroup d p.1 p.2.1 p.2.2 / 64 ^ j % 64)) := by
  have hlt : g < 5 := (List.getElem?_eq_some_iff.mp hg).1
  rw [a64_eq_groups, List.getElem?_append_left (by rw [flatMap_groupChars_length]; omega),
    getElem?_flatMap_of_length (groupChars_length d) hg hj]
  exact to64_getElem? _ 4 j hj

/-- The last two characters of A64 are those of byte 11. -/
theorem a64_getElem?_last {j : Nat} (d : Bytes) (hj : j < 2) :
    (a64 d)[20 + j]? = some (a64Char ((d.getD 11 0).toNat / 64 ^ j % 64)) := by
  rw [a64_eq_groups, List.getElem?_append_right (by rw [flatMap_groupChars_length]; omega),
    flatMap_groupChars_length, Nat.add_sub_cancel_left]
  exact to64_getElem? _ 2 j hj

/-- Settles O41: `to64_getElem?`, for the characters of each group with the group's value in base 256. -/
theorem a64PlacesEachSixBits : Obligations.A64PlacesEachSixBits := by
  refine ⟨fun v n => ⟨to64_length v n, to64_getElem? v n⟩, fun d _ => ⟨a64_length d, ?_, fun _ => a64_getElem?_last d⟩⟩
  intro g j x y z hg hj
  rw [a64_getElem?_group d hg hj, packGroup_eq]

/-! ### A64ENC (R144) -/

theorem Bytes.isFix_iff {k : Nat} {b : Bytes} : Bytes.isFix k b = true ↔ b.length = k :=
  decide_eq_true_iff

/-- A command of header format N whose one operand is a digest takes no other second byte and no other length. -/
theorem isIllegal_of_digest_operand {nctx : Nat} {o b : Byte} {body : Bytes} (ho : o = 0x0A ∨ o = 0x0B)
    (h : b ≠ 0x00 ∨ body.length ≠ 16) : IsIllegal nctx (o :: b :: body) := by
  cases hd : decodeFrame nctx (o :: b :: body) with
  | error why => exact ⟨why, hd⟩
  | ok i =>
    exfalso
    obtain rfl | rfl := ho
    all_goals
      obtain ⟨_, hf, hops⟩ := bind_ok hd
      obtain ⟨hcd, hcs⟩ := formatN_inv hf
      obtain ⟨hlen, -⟩ := takeFix_finish_inv hops
      refine h.elim (fun hb => hb ?_) (· hlen)
      rw [← ofNibbles_nibbles b, hcd, hcs]
      rfl

/-- Settles O43: `exec_a64enc` after the checks that come first. -/
theorem a64encAnswersTheEncoding : Obligations.A64encAnswersTheEncoding := fun _ dg =>
  ⟨rfl, fun _ _ => isIllegal_of_digest_operand (.inr rfl), checksFirst_of_wf Bytes.isFix_iff fun hh hw =>
    ⟨a64_length dg, onlyAnswers_of_exec (exec_a64enc hh hw)⟩⟩

end Sys2Proof

/-! ## PROOFS. Apr1Hasher (spec/43_apr1_hasher.md) -/

namespace Sys2Proof

open Machine

/-! ### The layout of the apr1 string (R161) -/

/-- A round of step 3 ends with `engFinal`, so every round keeps the digest's size (R153). -/
@[simp] theorem apr1Round_length (password s8 digest : Bytes) (round : Nat) :
    (apr1Round password s8 digest round).length = 16 :=
  engFinal_length _

/-- The rounds of step 3 take a 16-byte digest to a 16-byte digest (R153). -/
theorem apr1Rounds_length (password s8 : Bytes) {digest : Bytes} (h : digest.length = 16) :
    (apr1Rounds password s8 digest).length = 16 :=
  List.foldlRecOn (motive := fun d => d.length = 16) (List.range 1000) (apr1Round password s8) h
    fun d _ round _ => apr1Round_length password s8 d round

@[simp] theorem apr1Digest_length (password salt : Bytes) : (apr1Digest password salt).length = 16 :=
  apr1Rounds_length password (salt8 salt) (engFinal_length _)

/-- Everything before the salt's closing `$` is the magic and salt8. -/
theorem magic_salt8_length (salt : Bytes) : (apr1Magic ++ salt8 salt).length = 6 + min 8 salt.length := by
  rw [List.length_append, apr1Magic_length, salt8_length]

/-- The apr1 string cut at the salt's closing `$`. -/
theorem apr1_eq (password salt : Bytes) :
    apr1 password salt = (apr1Magic ++ salt8 salt) ++ dollar :: a64 (apr1Digest password salt) :=
  List.append_assoc _ [dollar] _

/-- Settles O46: the string cut at its `$` by `apr1_eq`, and `magic_salt8_length` says where that stands. -/
theorem apr1StringHasItsLayout : Obligations.Apr1StringHasItsLayout := by
  intro password salt
  have hlen := magic_salt8_length salt
  refine ⟨apr1_length password salt, rfl, ?salt, ?dollar, apr1Digest_length password salt, ?digest⟩
  case salt =>
    rw [apr1_eq, List.append_assoc, List.drop_left' apr1Magic_length]
    exact List.take_left' (salt8_length salt)
  case dollar =>
    rw [apr1_eq, ← hlen, List.getElem?_append_right le_rfl, Nat.sub_self]
    rfl
  case digest =>
    exact List.drop_left' (by rw [List.length_append, hlen, List.length_singleton]; omega)

end Sys2Proof

/-! ## PROOFS. HexCodec and one-shot MD5 (spec/44_md5_oneshot_hex.md) -/

namespace Sys2Proof

open Machine

/-! ### HEX (R170) -/

/-- The digit's two ranges as one character code. -/
theorem hexDigit_eq_ofNat (x : Fin 16) :
    hexDigit x = BitVec.ofNat 8 (if x.val ≤ 9 then 0x30 + x.val else 0x61 + (x.val - 10)) :=
  (apply_ite (BitVec.ofNat 8) ..).symm

/-- Character `2k + j` of HEX is digit `j` of byte `k`. -/
theorem hex_getElem? {b : Bytes} {k j : Nat} {x : Byte} (hx : b[k]? = some x) (hj : j < 2) :
    (hex b)[2 * k + j]? = [hexDigit (highNibble x), hexDigit (lowNibble x)][j]? :=
  getElem?_flatMap_of_length (f := fun x => [hexDigit (highNibble x), hexDigit (lowNibble x)]) (fun _ => rfl) hx hj

theorem hex_length_of_digest {dg : Bytes} (h : dg.length = 16) : (hex dg).length = 32 := by
  rw [hex_length, h]

/-- Settles O31: `hex_getElem?` at both digits of a byte, whose codes `hexDigit_eq_ofNat` gives. -/
theorem hexWritesHighNibbleFirst : Obligations.HexWritesHighNibbleFirst := by
  refine fun b => ⟨hex_length b, fun k x hx => ⟨?high, ?low⟩⟩
  case high => exact (hex_getElem? hx (j := 0) (by decide)).trans (congrArg some (hexDigit_eq_ofNat (highNibble x)))
  case low => exact (hex_getElem? hx (j := 1) (by decide)).trans (congrArg some (hexDigit_eq_ofNat (lowNibble x)))

/-! ### HEXENC, MD5, FINALHEX (R171 to R173) -/

/-- Settles O33: `exec_hexenc` after the checks that come first. -/
theorem hexencAnswersHex : Obligations.HexencAnswersHex := fun _ _ =>
  ⟨rfl, fun _ _ => isIllegal_of_digest_operand (.inl rfl), checksFirst_of_wf Bytes.isFix_iff fun hh hw =>
    ⟨hex_length_of_digest (Bytes.isFix_iff.mp hw), onlyAnswers_of_exec (exec_hexenc hh hw)⟩⟩

/-- Settles O34: `exec_md5` after the checks that come first. -/
theorem md5CommandAnswersTheHexDigest : Obligations.Md5CommandAnswersTheHexDigest := fun _ _ =>
  ⟨(List.append_assoc ..).symm, checksFirst_of_wf Bytes.isVar_iff fun hh hw =>
    ⟨hex_length_of_digest (engFinal_length _), onlyAnswers_of_exec (exec_md5 hh hw)⟩⟩

/-- Settles O35: `exec_finalhex` on an ACTIVE slot, after the checks that come first. -/
theorem finalhexAnswersTheHexDigestAndIdles : Obligations.FinalhexAnswersTheHexDigestAndIdles := fun _ _ =>
  ⟨rfl, checksFirst_of_wf SlotNo.legal_iff fun hh hw => needsActive_of_readsSlot hh hw rfl fun e hs =>
    ⟨hex_length_of_digest (engFinal_length e),
      answersAndSets_of_exec (SlotNo.legal_iff.mp hw) (exec_finalhex hh hw hs)⟩⟩

end Sys2Proof

/-! ## PROOFS. HashHandle (spec/45_hash_handle.md) -/

namespace Sys2Proof

open Machine

/-! ### DIGEST, HEXDIGEST (R181, R182) -/

/-- The frame of a command of header format S without operands: its second byte is the slot number (R71, R73). -/
theorem header_zero (opc : Byte) (cs : Fin 16) : header opc 0 cs = [opc, BitVec.ofNat 8 cs.val] :=
  congrArg (fun n => [opc, BitVec.ofNat 8 n]) (Nat.zero_add cs.val)

/-- Settles O36: `exec_digest` and `exec_hexdigest` on an ACTIVE slot, after the checks that come first. -/
theorem digestAndHexdigestDoNotDisturb : Obligations.DigestAndHexdigestDoNotDisturb := by
  refine fun s cs => ⟨header_zero 0x06 cs, header_zero 0x07 cs, ?digest, ?hexdigest⟩
  case digest =>
    exact checksFirst_of_wf SlotNo.legal_iff fun hh hw => needsActive_of_readsSlot hh hw rfl fun _ hs =>
      onlyAnswers_of_exec (exec_digest hh hw hs)
  case hexdigest =>
    exact checksFirst_of_wf SlotNo.legal_iff fun hh hw => needsActive_of_readsSlot hh hw rfl fun _ hs =>
      onlyAnswers_of_exec (exec_hexdigest hh hw hs)

/-! ### ATTR (R183) -/

/-- The selectors are 0, 1 and 2 (R73). -/
theorem AttrSel.field_lt (sel : AttrSel) : sel.field.val < 3 := by
  cases sel <;> decide

/-- A frame of ATTR has CD zero, a selector below 3 and nothing after the header (R73, R77). -/
theorem isIllegal_attr {nctx : Nat} {b : Byte} {body : Bytes}
    (h : highNibble b ≠ 0 ∨ 3 ≤ (lowNibble b).val ∨ body ≠ []) : IsIllegal nctx (0x0E :: b :: body) := by
  cases hd : decodeFrame nctx (0x0E :: b :: body) with
  | error why => exact ⟨why, hd⟩
  | ok i =>
    exfalso
    obtain ⟨sel, hf, hops⟩ := bind_ok hd
    obtain ⟨hcd, hcs⟩ := formatSel_inv hf
    obtain ⟨hbody, -⟩ := finish_inv hops
    obtain h | h | h := h
    · exact h hcd
    · exact h.not_gt (hcs ▸ sel.field_lt)
    · exact h hbody

/-- Settles O37: `exec_attr`, which asks nothing of the slots, after the check of HALT; every selector is legal. -/
theorem attrAnswersTheConstants : Obligations.AttrAnswersTheConstants := by
  refine fun s sel =>
    ⟨?frame, fun _ _ => isIllegal_attr, checksFirst_of_wf (iff_of_true rfl trivial) fun hh _ => ?answer⟩
  case frame => cases sel <;> rfl
  case answer => cases sel <;> exact onlyAnswers_of_exec (exec_attr hh _)

end Sys2Proof

/-! ## PROOFS. Errors (spec/60_exceptions.md R193, R196) -/

namespace Sys2Proof.Machine

variable {s t : State} {i : Instr} {c : SlotNo}

/-! ### The order of the errors (R196) -/

/-- HALT is looked at before the frame (R195, R196). -/
theorem serveFrame_of_halt (f : Bytes) (h : s.halt = true) :
    serveFrame f s = .next (s.respond .invariant []) :=
  if_pos h

theorem validate_eq_none {password stored : Bytes} (h : parseStored stored = none) :
    validate password stored = none :=
  congrArg (Option.map _) h

/-! ### Where E_SEQ comes from (R193) -/

/-- A legal command names only slots of the context file (R76). -/
theorem readsSlot_lt_nctx {nctx : Nat} (hw : i.wf nctx = true) (hr : readsSlot i = some c) : c.val < nctx := by
  cases i <;> cases hr
  case update => exact (wf_update_iff.mp hw).1
  case copy => exact (wf_copy_iff.mp hw).2
  case final | finalhex | digest | hexdigest => exact SlotNo.legal_iff.mp hw

/-- A command that ends with status OK, whatever slot it wrote, does not answer E_SEQ. -/
theorem State.respond_ok_ne_seq {u : State} {r : Bytes} (hu : u.responses = s.responses) :
    (u.respond .ok r).responses ≠ s.responses ++ [[0x02]] := by
  simp [hu, Status.code]

/-- What a legal command that answers E_SEQ is: one that reads an IDLE slot. The converse of `exec_seq`. -/
theorem exec_seq_inv (hh : s.halt = false) (hw : i.wf s.nctx = true) (h : exec i s = .next t)
    (ht : t.responses = s.responses ++ [[0x02]]) : ∃ c, readsSlot i = some c ∧ s.slot c = .idle := by
  cases i with
  | init | md5 | xform | hexenc | a64enc | apr1enc | attr =>
    cases (State.command_legal hh hw).symm.trans h
    exact absurd ht (State.respond_ok_ne_seq rfl)
  | apr1val password stored =>
    have hbody := (State.command_legal hh hw).symm.trans h
    split at hbody <;> cases hbody
    · simp [Status.code] at ht
    · exact absurd ht (State.respond_ok_ne_seq rfl)
  | final c | copy _ c | finalhex c | digest c | hexdigest c =>
    have hbody := (State.command_legal hh hw).symm.trans h
    obtain ⟨hs, -⟩ | ⟨e, -, he⟩ := State.withActive_cases s c _
    · exact ⟨c, rfl, hs⟩
    · cases he.symm.trans hbody
      exact absurd ht (State.respond_ok_ne_seq rfl)
  | update c data =>
    have hbody := (State.command_legal hh hw).symm.trans h
    obtain ⟨hs, -⟩ | ⟨e, -, he⟩ := State.withActive_cases s c _
    · exact ⟨c, rfl, hs⟩
    · have hlim := he.symm.trans hbody
      split at hlim <;> cases hlim
      exact absurd ht (State.respond_ok_ne_seq rfl)

end Sys2Proof.Machine

namespace Sys2Proof

open Machine

/-- A frame answered with an error: the step takes it off the command stream and changes nothing else (R190, R192). -/
theorem step_answers_error {s : State} {f : Bytes} {more : List HostAct} {st : Status}
    (hc : s.commands = .frame f :: more)
    (h : serveFrame f { s with commands := more } = .next (({ s with commands := more } : State).respond st [])) :
    ∃ t, step s = .next t ∧ Answers { s with commands := more } t none [st.code] :=
  ⟨_, (step_of_cons hc).trans h, .respond _ st []⟩

/-- A command answered with an error, by a block that is not halted. -/
theorem step_answers_exec_error {s : State} {f : Bytes} {more : List HostAct} {i : Instr} {st : Status}
    (hc : s.commands = .frame f :: more) (hh : s.halt = false) (hd : decodeFrame s.nctx f = .ok i)
    (h : exec i { s with commands := more } = .next (({ s with commands := more } : State).respond st [])) :
    ∃ t, step s = .next t ∧ Answers { s with commands := more } t none [st.code] :=
  step_answers_error hc ((serveFrame_of_ok (s := { s with commands := more }) hh hd).trans h)

/-- Settles O5: each check is reached where the ones before it pass; a command whose frame decodes is legal, so that
its own check of legality decides nothing. -/
theorem errorsAreCheckedInOrder : Obligations.ErrorsAreCheckedInOrder := by
  refine fun s f more hc => ⟨fun hh => ?halt, fun hh hf => ?decode, fun i c hh hd hr hs => ?slot,
    fun password stored hh hd hp => ?stored⟩
  case halt => exact step_answers_error hc (serveFrame_of_halt f hh)
  case decode =>
    obtain ⟨t, ht, -, ha⟩ := step_of_isIllegal hh hc hf
    exact ⟨t, ht, ha⟩
  case slot =>
    have hw : i.wf s.nctx = true := (encode_of_decodeFrame hd).2
    have hidle : s.slot c = .idle := State.slot_of_getElem? s c _ hs
    exact step_answers_exec_error hc hh hd (exec_seq hh hw hr hidle)
  case stored =>
    have hw : (Instr.apr1val password stored).wf s.nctx = true := (encode_of_decodeFrame hd).2
    exact step_answers_exec_error hc hh hd
      (exec_apr1val_none (s := { s with commands := more }) hh hw (validate_eq_none hp))

/-- Settles O53: `exec_seq_inv` and `exec_seq`; a slot that a legal command reads is in the context file. -/
theorem idleSlotRaisesSequencingError : Obligations.IdleSlotRaisesSequencingError := by
  intro i s hh hw
  constructor
  · rintro ⟨t, ht, ha⟩
    obtain ⟨c, hr, hs⟩ := exec_seq_inv hh hw ht ha.responses
    exact ⟨c, hr, hs ▸ State.getElem?_of_lt s c (readsSlot_lt_nctx hw hr)⟩
  · rintro ⟨c, hr, hs⟩
    exact onlyAnswers_of_exec (exec_seq hh hw hr (State.slot_of_getElem? s c _ hs))

end Sys2Proof

/-! ## PROOFS. The round trip of frames and their rows (spec/30_encoding.md R71 to R74) -/

namespace Sys2Proof

open Machine

/-- Settles O7: `decodeFrame_encode`, which reads a legal frame field by field. -/
theorem decodeOfEncodeIsTheCommand : Obligations.DecodeOfEncodeIsTheCommand := fun _ _ => decodeFrame_encode

/-- Settles O8: `encode_of_decodeFrame`, the inversion of the decoder row by row. -/
theorem encodeOfDecodeIsTheFrame : Obligations.EncodeOfDecodeIsTheFrame := fun _ _ _ => encode_of_decodeFrame

/-- Settles O9: each of the nine byte strings is the frame of a legal command. -/
theorem framesWrittenOutDecodeAsTheSpecSays : Obligations.FramesWrittenOutDecodeAsTheSpecSays :=
  ⟨decodeFrame_encode (i := .init 3) rfl, decodeFrame_encode (i := .update 2 [0x66, 0x6f, 0x6f]) rfl,
    decodeFrame_encode (i := .final 1) rfl, decodeFrame_encode (i := .copy 1 0) rfl,
    decodeFrame_encode (i := .finalhex 0) rfl, decodeFrame_encode (i := .digest 3) rfl,
    decodeFrame_encode (i := .hexdigest 2) rfl, decodeFrame_encode (i := .apr1enc [0x61, 0x62] [0x78, 0x79]) rfl,
    decodeFrame_encode (i := .attr .name) rfl⟩

/-- The header alone decides the row, by the slot fields that the command's header format uses (R73). -/
theorem headerWord_encode_and_mask (i : Instr) : headerWord (encode i) &&& (rowOf i).2 = (rowOf i).1 := by
  have formatD : ∀ cd : Fin 16, ∀ opc ∈ [(0x01 : Byte), 0x02, 0x03, 0x05],
      headerWord (header opc cd 0) &&& 0xFF0F = opc.toNat * 256 := by decide
  have formatS : ∀ cs : Fin 16, ∀ opc ∈ [(0x06 : Byte), 0x07],
      headerWord (header opc 0 cs) &&& 0xFFF0 = opc.toNat * 256 := by decide
  have formatDS : ∀ cd cs : Fin 16, headerWord (header 0x04 cd cs) &&& 0xFF00 = 0x0400 := by decide
  have formatN : ∀ opc ∈ [(0x08 : Byte), 0x09, 0x0A, 0x0B, 0x0C, 0x0D],
      headerWord (header opc 0 0) &&& 0xFFFF = opc.toNat * 256 := by decide
  cases i with
  | init cd | update cd | final cd | finalhex cd => exact formatD cd _ (by decide)
  | digest cs | hexdigest cs => exact formatS cs _ (by decide)
  | copy cd cs => exact formatDS cd cs
  | md5 | xform | hexenc | a64enc | apr1enc | apr1val => exact formatN _ (by decide)
  | attr sel => cases sel <;> rfl

/-- Settles O10: the frame is the one the encoder writes for the command, whose header selects the command's row. -/
theorem headerSelectsTheRowOfTheCommand : Obligations.HeaderSelectsTheRowOfTheCommand := by
  intro nctx f i h
  obtain ⟨rfl, -⟩ := encode_of_decodeFrame h
  exact headerWord_encode_and_mask i

end Sys2Proof

/-! ## PROOFS. One step (spec/00_scope.md R5, spec/30_encoding.md R70, spec/70_reset_and_hazards.md R220) -/

namespace Sys2Proof

open Machine

/-- Settles O2: the step serves the reset, whose effect is `resetBlock`. -/
theorem resetEventRestoresTheResetState : Obligations.ResetEventRestoresTheResetState := by
  intro s more hc
  refine ⟨({ s with commands := more } : State).resetBlock, step_of_cons hc, State.resetBlock_nctx _, fun k hk => ?_,
    rfl, rfl, rfl⟩
  rw [State.resetBlock_ctx, List.getElem?_replicate_of_lt (by simpa using hk)]

/-- Settles O3: `step_of_nil`. -/
theorem waitsWhileNoFrameHasArrived : Obligations.WaitsWhileNoFrameHasArrived := fun _ => step_of_nil

/-- A frame that decodes is served by `exec`, HALT set or not: `exec` makes the same check first (R196). -/
theorem serveFrame_eq_exec {s : State} {f : Bytes} {i : Instr} (hd : decodeFrame s.nctx f = .ok i) :
    serveFrame f s = exec i s := by
  cases hh : s.halt with
  | true => exact (serveFrame_of_halt f hh).trans (exec_halted i hh).symm
  | false => exact serveFrame_of_ok hh hd

/-- Settles O4: a frame that decodes is served by `exec`, which checks HALT itself. -/
theorem stepRunsTheDecodedCommand : Obligations.StepRunsTheDecodedCommand := fun s _ more _ hc hd =>
  (step_of_cons hc).trans (serveFrame_eq_exec (s := { s with commands := more }) hd)

/-- No command changes HALT. -/
theorem exec_halt {i : Instr} {s t : State} (h : exec i s = .next t) : t.halt = s.halt := by
  obtain ⟨st, -, rfl⟩ | ⟨-, -, r, ⟨-, rfl⟩ | ⟨c, v, -, rfl⟩⟩ := exec_next h <;> rfl

/-- Everything a step can do: wait, reset, answer a frame with an error, or run the command of a frame. -/
theorem step_next {s t : State} (h : step s = .next t) :
    (s.commands = [] ∧ t = s) ∨
    (∃ more, s.commands = .reset :: more ∧ t = ({ s with commands := more } : State).resetBlock) ∨
    (∃ f more st, s.commands = .frame f :: more ∧ t = ({ s with commands := more } : State).respond st []) ∨
    (∃ f more i, s.commands = .frame f :: more ∧ exec i { s with commands := more } = .next t) := by
  cases hc : s.commands with
  | nil => exact .inl ⟨rfl, by cases (step_of_nil hc).symm.trans h; rfl⟩
  | cons a more =>
    have hs : serve a { s with commands := more } = .next t := (step_of_cons hc).symm.trans h
    cases a with
    | reset => exact .inr (.inl ⟨more, rfl, by cases hs; rfl⟩)
    | frame f =>
      refine .inr (.inr ?_)
      obtain ⟨-, he⟩ | ⟨-, -, he⟩ | ⟨-, i, -, he⟩ := serveFrame_cases f { s with commands := more }
      · exact .inl ⟨f, more, .invariant, rfl, by cases he.symm.trans hs; rfl⟩
      · exact .inl ⟨f, more, .illegal, rfl, by cases he.symm.trans hs; rfl⟩
      · exact .inr ⟨f, more, i, rfl, he.symm.trans hs⟩

/-- Settles O6: HALT set answers every frame, and no case of `step_next` sets it. -/
theorem haltIsStickyAndNeverSet : Obligations.HaltIsStickyAndNeverSet := by
  refine ⟨State.resetOf_halt, fun s f more hh hc => ?set, fun s t more hc h => ?reset,
    fun s hh hc => ⟨s, step_of_nil hc, hh⟩, fun s t h hh => ?never⟩
  case set => exact step_answers_error hc (serveFrame_of_halt f hh)
  case reset =>
    cases (step_of_cons hc).symm.trans h
    rfl
  case never =>
    obtain ⟨-, rfl⟩ | ⟨more, -, rfl⟩ | ⟨f, more, st, -, rfl⟩ | ⟨f, more, i, -, hx⟩ := step_next h
    · exact hh
    · rfl
    · exact hh
    · exact (exec_halt hx).trans hh

end Sys2Proof

/-! ## PROOFS. The assembler reads the text of every command (spec/30_encoding.md R80) -/

namespace Sys2Proof.Machine

/-! ### Texts of operands -/

/-- A text after which a name ends: it begins with no character of a name. -/
def EndsName (tl : List Char) : Prop := tl.takeWhile isNameChar = []

/-- What begins neither with a blank nor with a comment, so that a line does not end there. -/
def BeginsWord (text : List Char) : Prop := ∃ c rest, text = c :: rest ∧ isBlank c = false ∧ c ≠ ';'

/-- The text of one operand, whatever follows it. -/
structure OperandText (text : List Char) (o : AsmOperand) : Prop where
  begins : BeginsWord text
  reads : ∀ tl, EndsName tl → asmOperand (text ++ tl) = some (o, tl)

theorem endsName_nil : EndsName [] := rfl

theorem endsName_comma (tl : List Char) : EndsName (',' :: tl) := rfl

theorem BeginsWord.append {text : List Char} (h : BeginsWord text) (tl : List Char) : BeginsWord (text ++ tl) := by
  obtain ⟨c, rest, rfl, hc⟩ := h
  exact ⟨c, rest ++ tl, rfl, hc⟩

theorem BeginsWord.skipBlanks {text : List Char} (h : BeginsWord text) : skipBlanks text = text := by
  obtain ⟨c, rest, rfl, hc, -⟩ := h
  simp [Machine.skipBlanks, hc]

theorem skipBlanks_space (tl : List Char) : skipBlanks (' ' :: tl) = skipBlanks tl := rfl

/-- A line does not end where a word begins. -/
theorem BeginsWord.not_atLineEnd {text : List Char} (h : BeginsWord text) : atLineEnd text = false := by
  unfold atLineEnd
  rw [h.skipBlanks]
  obtain ⟨c, rest, rfl, -, hc⟩ := h
  exact beq_false_of_ne hc

theorem atLineEnd_space (tl : List Char) : atLineEnd (' ' :: tl) = atLineEnd tl := rfl

/-! ### Hex literals -/

theorem hexValue_hexChar : ∀ x : Fin 16, hexValue (hexChar x) = some x := by decide

theorem hexChar_ne_quote : ∀ x : Fin 16, hexChar x ≠ '\'' := by decide

/-- The two digits of a byte are read back. -/
theorem hexLiteral_byte (x : Byte) {b : Bytes} {digits tl : List Char} (h : hexLiteral digits = some (b, tl)) :
    hexLiteral (hexChar (highNibble x) :: hexChar (lowNibble x) :: digits) = some (x :: b, tl) := by
  rw [hexLiteral]
  · simp [hexValue_hexChar, h]
  · exact hexChar_ne_quote _

theorem hexLiteral_digits (b : Bytes) (tl : List Char) :
    hexLiteral (b.flatMap (fun x => [hexChar (highNibble x), hexChar (lowNibble x)]) ++ '\'' :: tl) =
      some (b, tl) := by
  induction b with
  | nil => rfl
  | cons x b ih => exact hexLiteral_byte x ih

theorem operandText_bytes (b : Bytes) : OperandText (bytesText b) (.bytes b) where
  begins := ⟨'x', _, rfl, rfl, by decide⟩
  reads tl _ := by
    have hcut : bytesText b ++ tl = 'x' :: '\'' ::
        (b.flatMap (fun x => [hexChar (highNibble x), hexChar (lowNibble x)]) ++ '\'' :: tl) := by
      simp [bytesText]
    rw [hcut, asmOperand, hexLiteral_digits]
    rfl

/-! ### Names -/

/-- A word of the characters of names. -/
abbrev IsName (w : List Char) : Prop := w.isEmpty = false ∧ w.all isNameChar = true

theorem IsName.ne_nil {w : List Char} (h : IsName w) : w ≠ [] := List.isEmpty_eq_false_iff.mp h.1

/-- A name begins with no blank and no comment. -/
theorem IsName.begins {w : List Char} (h : IsName w) : BeginsWord w := by
  obtain ⟨c, rest, rfl⟩ := List.exists_cons_of_ne_nil h.ne_nil
  have hc : isNameChar c = true := List.all_eq_true.mp h.2 c List.mem_cons_self
  refine ⟨c, rest, rfl, ?_, ?_⟩
  · by_contra hb
    rw [Bool.not_eq_false, isBlank, Bool.or_eq_true, beq_iff_eq, beq_iff_eq] at hb
    obtain rfl | rfl := hb <;> revert hc <;> decide
  · rintro rfl
    revert hc
    decide

/-- A name, up to what ends it. -/
theorem IsName.takeWhile_dropWhile {w tl : List Char} (hw : IsName w) (h : EndsName tl) :
    (w ++ tl).takeWhile isNameChar = w ∧ (w ++ tl).dropWhile isNameChar = tl := by
  have hall : ∀ c ∈ w, isNameChar c = true := List.all_eq_true.mp hw.2
  have hdrop : tl.dropWhile isNameChar = tl := by
    have hjoin := List.takeWhile_append_dropWhile (p := isNameChar) (l := tl)
    rwa [h, List.nil_append] at hjoin
  rw [List.takeWhile_append_of_pos hall, List.dropWhile_append_of_pos hall, h, hdrop, List.append_nil]
  exact ⟨rfl, rfl⟩

/-- A name that begins like no literal is read as a slot where it is the name of one, else as a name. -/
theorem asmOperand_name {w tl : List Char} (hw : IsName w) (hlit : w.head? ≠ some '"' ∧ w.head? ≠ some 'x')
    (h : EndsName tl) :
    asmOperand (w ++ tl) = some ((slotName w).elim (.name w) .slot, tl) := by
  obtain ⟨htake, hdrop⟩ := hw.takeWhile_dropWhile h
  obtain ⟨c, rest, rfl⟩ := List.exists_cons_of_ne_nil hw.ne_nil
  rw [asmOperand, htake, hdrop]
  · cases slotName (c :: rest) <;> rfl
  · rintro _ hq
    exact hlit.1 (congrArg some (List.cons.inj hq).1)
  · rintro _ hx
    exact hlit.2 (congrArg some (List.cons.inj hx).1)

/-- What `asmOperand` looks at in the name of a slot. -/
theorem slotText_spec : ∀ c : SlotNo, IsName (slotText c) ∧ (slotText c).head? = some 'c' ∧
    slotName (slotText c) = some c := by
  decide +kernel

theorem operandText_slot (c : SlotNo) : OperandText (slotText c) (.slot c) := by
  obtain ⟨hname, hhead, hslot⟩ := slotText_spec c
  refine ⟨hname.begins, fun tl htl => ?_⟩
  rw [asmOperand_name hname (by rw [hhead]; decide) htl, hslot]
  rfl

theorem operandText_selector (sel : AttrSel) : OperandText (selText sel) (.name (selText sel)) := by
  have hname : IsName (selText sel) := by cases sel <;> decide
  refine ⟨hname.begins, fun tl htl => ?_⟩
  cases sel <;> exact asmOperand_name hname (by decide) htl

/-! ### Lines -/

/-- The one operand of a line. -/
theorem asmOperands_one {text : List Char} {o : AsmOperand} (h : OperandText text o) (fuel : Nat) :
    asmOperands (fuel + 1) (' ' :: text) = some [o] := by
  have hread : asmOperand text = some (o, []) := by simpa using h.reads [] endsName_nil
  rw [asmOperands, skipBlanks_space, h.begins.skipBlanks, hread]
  rfl

/-- The two operands of a line. -/
theorem asmOperands_two {text text' : List Char} {o o' : AsmOperand} (h : OperandText text o)
    (h' : OperandText text' o') (fuel : Nat) :
    asmOperands (fuel + 2) (' ' :: (text ++ ',' :: ' ' :: text')) = some [o, o'] := by
  rw [asmOperands, skipBlanks_space, (h.begins.append _).skipBlanks, h.reads _ (endsName_comma _)]
  exact congrArg (Option.map (o :: ·)) (asmOperands_one h' fuel)

/-- A line of a mnemonic and operands. -/
theorem assembleLine_operands {m : String} {rest : List Char} {os : List AsmOperand} (hm : IsName m.toList)
    (hrest : BeginsWord rest) (hos : asmOperands (rest.length + 1) (' ' :: rest) = some os) :
    assembleLine (m.toList ++ ' ' :: rest) = (asmCommand m os).map some := by
  have hbegins := hm.begins.append (' ' :: rest)
  obtain ⟨htake, hdrop⟩ := hm.takeWhile_dropWhile (tl := ' ' :: rest) rfl
  simp only [assembleLine, hbegins.not_atLineEnd, hbegins.skipBlanks, htake, hdrop, atLineEnd_space,
    hrest.not_atLineEnd, List.length_cons, hos, String.ofList_toList]
  rfl

theorem assembleLine_line1 {m : String} {text : List Char} {o : AsmOperand} (hm : IsName m.toList)
    (h : OperandText text o) : assembleLine (line1 m text) = (asmCommand m [o]).map some :=
  assembleLine_operands hm h.begins (asmOperands_one h _)

theorem assembleLine_line2 {m : String} {text text' : List Char} {o o' : AsmOperand} (hm : IsName m.toList)
    (h : OperandText text o) (h' : OperandText text' o') :
    assembleLine (line2 m text text') = (asmCommand m [o, o']).map some := by
  obtain ⟨fuel, hfuel⟩ : ∃ fuel, (text ++ ',' :: ' ' :: text').length + 1 = fuel + 2 :=
    ⟨text.length + text'.length + 1, by simp; omega⟩
  exact assembleLine_operands hm (h.begins.append _) (hfuel ▸ asmOperands_two h h' fuel)

theorem mnemonic_isName : ∀ m ∈ ["INIT", "UPDATE", "FINAL", "COPY", "FINALHEX", "DIGEST", "HEXDIGEST", "MD5",
    "XFORM", "HEXENC", "A64ENC", "APR1ENC", "APR1VAL", "ATTR"], IsName m.toList := by
  decide +kernel

end Sys2Proof.Machine

namespace Sys2Proof

open Machine

/-- Settles O15: the mnemonic and each operand are read back, and they make up the command. -/
theorem assemblingTheTextGivesTheCommand : Obligations.AssemblingTheTextGivesTheCommand := by
  intro i
  cases i with
  | init c | final c | finalhex c | digest c | hexdigest c =>
    exact assembleLine_line1 (mnemonic_isName _ (by decide)) (operandText_slot c)
  | md5 b | hexenc b | a64enc b => exact assembleLine_line1 (mnemonic_isName _ (by decide)) (operandText_bytes b)
  | update c b => exact assembleLine_line2 (mnemonic_isName _ (by decide)) (operandText_slot c) (operandText_bytes b)
  | copy c d => exact assembleLine_line2 (mnemonic_isName _ (by decide)) (operandText_slot c) (operandText_slot d)
  | xform a b | apr1enc a b | apr1val a b =>
    exact assembleLine_line2 (mnemonic_isName _ (by decide)) (operandText_bytes a) (operandText_bytes b)
  | attr sel =>
    refine (assembleLine_line1 (mnemonic_isName _ (by decide)) (operandText_selector sel)).trans ?_
    cases sel <;> rfl

/-- Settles O14: three fixed lines, evaluated. -/
theorem assemblerExamplesAssemble : Obligations.AssemblerExamplesAssemble := by
  refine ⟨?_, ?_, ?_⟩ <;> decide +kernel

end Sys2Proof

/-! ## PROOFS. Byte order (spec/20_memory.md R52) -/

namespace Sys2Proof.Machine

theorem le32_getElem? (w : Word) {k : Nat} (hk : k < 4) :
    (le32 w)[k]? = some (BitVec.ofNat 8 (w.toNat / 2 ^ (8 * k))) := by
  rw [← Nat.shiftRight_eq_div_pow]
  interval_cases k <;> rfl

theorem le64_getElem? (n : BitVec 64) {k : Nat} (hk : k < 8) :
    (le64 n)[k]? = some (BitVec.ofNat 8 (n.toNat / 2 ^ (8 * k))) := by
  rw [← Nat.shiftRight_eq_div_pow]
  interval_cases k <;> rfl

/-- The bytes of a word are the four bytes it was read from. -/
theorem le32_wordLe {b : Bytes} {k : Nat} (h : 4 * k + 4 ≤ b.length) :
    le32 (wordLe b k) = (b.drop (4 * k)).take 4 := by
  have hget : ∀ j, j < 4 → ((b.drop (4 * k)).take 4)[j]? = some (b.getD (4 * k + j) 0) := fun j hj => by
    rw [List.getElem?_take_of_lt hj, List.getElem?_drop, List.getD_eq_getElem?_getD,
      List.getElem?_eq_getElem (by omega), Option.getD_some]
  rw [wordLe, le32_ofLe32]
  refine List.ext_getElem? fun j => ?_
  by_cases hj : j < 4
  · rw [hget j hj]
    interval_cases j <;> rfl
  · rw [List.getElem?_eq_none (by simpa using hj), List.getElem?_eq_none (by rw [List.length_take]; omega)]

/-- Byte `j` of the four that a word was read from. -/
theorem getElem?_wordLe {b : Bytes} {k j : Nat} (h : 4 * k + 4 ≤ b.length) (hj : j < 4) :
    b[4 * k + j]?.map (·.toNat) = some ((wordLe b k).toNat / 2 ^ (8 * j) % 256) := by
  have hbyte : b[4 * k + j]? = (le32 (wordLe b k))[j]? := by
    rw [le32_wordLe h, List.getElem?_take_of_lt hj, List.getElem?_drop]
  rw [hbyte, le32_getElem? _ hj, Option.map_some, BitVec.toNat_ofNat]

/-- A digest state is what its 16 bytes serialise. -/
theorem DigestState.ofBytes_bytes (s : DigestState) : DigestState.ofBytes s.bytes = s := by
  obtain ⟨a, b, c, d⟩ := s
  exact (DigestState.mk.injEq ..).mpr ⟨ofLe32_le32 a, ofLe32_le32 b, ofLe32_le32 c, ofLe32_le32 d⟩

/-- Sixteen bytes are the serialisation of the state they read as. -/
theorem DigestState.bytes_ofBytes {b : Bytes} (h : b.length = 16) : (DigestState.ofBytes b).bytes = b := by
  have hlast : (b.drop 12).take 4 = b.drop 12 := List.take_of_length_le (by rw [List.length_drop]; omega)
  have hjoin : ∀ n, (b.drop n).take 4 ++ b.drop (n + 4) = b.drop n := fun n => by
    rw [← List.drop_drop, List.take_append_drop]
  simp only [DigestState.bytes, DigestState.ofBytes, le32_wordLe (show 4 * 0 + 4 ≤ b.length by omega),
    le32_wordLe (show 4 * 1 + 4 ≤ b.length by omega), le32_wordLe (show 4 * 2 + 4 ≤ b.length by omega),
    le32_wordLe (show 4 * 3 + 4 ≤ b.length by omega), hlast, List.append_assoc]
  rw [hjoin 8, hjoin 4, hjoin 0, List.drop_zero]

end Sys2Proof.Machine

namespace Sys2Proof

open Machine

/-- Settles O18: the bytes of words, and the round trip between words and bytes both ways. -/
theorem serialisationIsLittleEndian : Obligations.SerialisationIsLittleEndian := by
  refine ⟨fun w k => le32_getElem? w, fun n k => le64_getElem? n, fun b k h => ?bytes,
    fun s => ⟨s.bytes_length, s.ofBytes_bytes⟩, fun b => DigestState.bytes_ofBytes⟩
  case bytes =>
    refine ⟨?_, getElem?_wordLe h (j := 1) (by decide), getElem?_wordLe h (j := 2) (by decide),
      getElem?_wordLe h (j := 3) (by decide)⟩
    simpa using getElem?_wordLe h (j := 0) (by decide)

end Sys2Proof

/-! ## PROOFS. BlockTransform (spec/40_block_transform.md) -/

namespace Sys2Proof

open Machine

/-! ### The operations (R103 to R108) -/

theorem rol32_eq_rotateLeft (x : Word) {n : Nat} (h : n < 32) : rol32 x n = x.rotateLeft n := by
  rw [BitVec.rotateLeft_def, Nat.mod_eq_of_lt h]
  rfl

/-- Settles O16: `rol32` is the library's rotation, whose bits below and from the amount on are given separately. -/
theorem rotationMovesEachBit : Obligations.RotationMovesEachBit := by
  intro x n k _ hn hk
  rw [rol32_eq_rotateLeft x (by omega), BitVec.getLsbD_rotateLeft_of_le (by omega)]
  by_cases hwrap : k + n < 32
  · simp [Nat.mod_eq_of_lt hwrap, hk, hwrap]
  · have hmod : (k + n) % 32 = k + n - 32 := by omega
    have hlow : k + n - 32 < n := by omega
    have hbit : 32 - n + (k + n - 32) = k := by omega
    simp [hmod, hlow, hbit]

/-- The index formulas of R104 and R105 are the tables that the spec writes out. -/
theorem wordIndex_rotAmount_eq :
    ∀ i < 64, wordIndex i = wordOrder.getD i 0 ∧ rotAmount i = rotations.getD i 0 ∧ rotAmount i < 32 := by
  decide

/-- The function of an operation is that of its round of sixteen (R103). -/
theorem roundFn_eq {i : Nat} (h : i < 64) : roundFn i = [fnF, fnG, fnH, fnI].getD (i / 16) fnI := by
  obtain h0 | h1 | h2 | h3 : i / 16 = 0 ∨ i / 16 = 1 ∨ i / 16 = 2 ∨ i / 16 = 3 := by omega
  · rw [h0, roundFn, if_pos (by omega)]; rfl
  · rw [h1, roundFn, if_neg (by omega), if_pos (by omega)]; rfl
  · rw [h2, roundFn, if_neg (by omega), if_neg (by omega), if_pos (by omega)]; rfl
  · rw [h3, roundFn, if_neg (by omega), if_neg (by omega), if_neg (by omega)]; rfl

/-- One operation of the model is the statement's `operation` with the round, word, constant and rotation of its
index. -/
theorem btOp_eq_operation (blk : Bytes) (w : DigestState) {i : Nat} (h : i < 64) :
    btOp blk w i = operation (i / 16) (wordLe blk (wordOrder.getD i 0)) (kTable.getD i 0) (rotations.getD i 0) w := by
  obtain ⟨hword, hrot, hlt⟩ := wordIndex_rotAmount_eq i h
  have hround : i / 16 < 4 := by omega
  rw [btOp, roundFn_eq h, rol32_eq_rotateLeft _ hlt, hword, hrot, kConst]
  interval_cases i / 16 <;> rfl

/-- Settles O17: `btOp_eq_operation` for each of the 64 indices; `bt` adds the input state to what they give. -/
theorem btIsFourRoundsOfSixteenOperations : Obligations.BtIsFourRoundsOfSixteenOperations := by
  intro s blk _
  have hfold : (List.range 64).foldl (btOp blk) s = (List.range 64).foldl (fun w i =>
      operation (i / 16) (wordLe blk (wordOrder.getD i 0)) (kTable.getD i 0) (rotations.getD i 0) w) s :=
    List.foldl_ext _ _ s fun w i hi => btOp_eq_operation blk w (List.mem_range.mp hi)
  simp only [bt, hfold]

/-! ### XFORM (R109) -/

theorem wf_xform_iff {nctx : Nat} {state block : Bytes} :
    (Instr.xform state block).wf nctx = true ↔ state.length = 16 ∧ block.length = 64 :=
  Bool.and_eq_true_iff.trans (and_congr Bytes.isFix_iff Bytes.isFix_iff)

/-- A frame of XFORM has a zero second byte and 80 bytes after the header (R73, R77). -/
theorem isIllegal_xform {nctx : Nat} {b : Byte} {body : Bytes} (h : b ≠ 0x00 ∨ body.length ≠ 80) :
    IsIllegal nctx (0x09 :: b :: body) := by
  cases hd : decodeFrame nctx (0x09 :: b :: body) with
  | error why => exact ⟨why, hd⟩
  | ok i =>
    exfalso
    obtain ⟨_, hf, hops⟩ := bind_ok hd
    obtain ⟨hcd, hcs⟩ := formatN_inv hf
    obtain ⟨⟨state, block⟩, hfix, hops⟩ := bind_ok hops
    obtain ⟨hblock, -⟩ := takeFix_finish_inv hops
    obtain ⟨rfl, hstate⟩ := takeFix_inv hfix
    refine h.elim (fun hb => hb ?_) fun hlen => hlen (by rw [List.length_append, hstate, hblock])
    rw [← ofNibbles_nibbles b, hcd, hcs]
    rfl

/-- Settles O19: `exec_xform` after the checks that come first. -/
theorem xformAnswersTheBlockTransform : Obligations.XformAnswersTheBlockTransform := fun _ _ _ =>
  ⟨rfl, fun _ _ => isIllegal_xform, checksFirst_of_wf wf_xform_iff fun hh hw =>
    onlyAnswers_of_exec (exec_xform hh hw)⟩

end Sys2Proof

/-! ## PROOFS. Updates and messages (spec/41_digest_engine.md R123, R128, R129) -/

namespace Sys2Proof.Machine

/-- What an update leaves in the buffer is short, whatever the buffer held before. -/
theorem engUpdate_buf_length_le (e : Engine) (data : Bytes) : (engUpdate e data).buf.length ≤ 63 := by
  rw [engUpdate_buf_length]
  omega

/-- Chunk invariance (R123): the blocks of the first update, then those of the second, are the blocks of the data
joined. -/
@[simp] theorem engUpdate_engUpdate (e : Engine) (a b : Bytes) :
    engUpdate (engUpdate e a) b = engUpdate e (a ++ b) := by
  have hcut : 64 * ((e.buf ++ a).length / 64) ≤ (e.buf ++ a).length := Nat.mul_div_le _ 64
  have hdrop : (e.buf ++ a).drop (64 * ((e.buf ++ a).length / 64)) ++ b =
      (e.buf ++ (a ++ b)).drop (64 * ((e.buf ++ a).length / 64)) := by
    rw [← List.append_assoc, List.drop_append_of_le_length hcut]
  have hq : (e.buf ++ (a ++ b)).length / 64 = (e.buf ++ a).length / 64 +
      ((e.buf ++ (a ++ b)).drop (64 * ((e.buf ++ a).length / 64))).length / 64 := by
    rw [List.length_drop]
    simp only [List.length_append] at hcut ⊢
    omega
  have hfirst : btBlocks ((e.buf ++ a).length / 64) e.words (e.buf ++ a) =
      btBlocks ((e.buf ++ a).length / 64) e.words (e.buf ++ (a ++ b)) := by
    rw [← List.append_assoc, btBlocks_append _ _ _ _ hcut]
  simp only [engUpdate, Engine.mk.injEq]
  refine ⟨?words, ?count, ?buf⟩
  case words => rw [hdrop, hfirst, ← btBlocks_add, ← hq]
  case count => rw [bitLength_append, BitVec.add_assoc]
  case buf => rw [hdrop, List.drop_drop, ← Nat.mul_add, ← hq]

@[simp] theorem engUpdate_engInit_nil : engUpdate engInit [] = engInit := rfl

/-- Chunks after an update, all of them at once. -/
theorem foldl_engUpdate (e : Engine) (data : Bytes) (chunks : List Bytes) :
    chunks.foldl engUpdate (engUpdate e data) = engUpdate e (data ++ chunks.flatten) := by
  induction chunks generalizing data with
  | nil => rw [List.foldl_nil, List.flatten_nil, List.append_nil]
  | cons x xs ih => rw [List.foldl_cons, engUpdate_engUpdate, ih, List.flatten_cons, List.append_assoc]

/-- The engine value of a message: its whole blocks are consumed, the rest is in the buffer (R128). -/
theorem engUpdate_engInit (m : Bytes) :
    engUpdate engInit m = { words := btBlocks (m.length / 64) engInit.words m, count := bitLength m,
                            buf := m.drop (64 * (m.length / 64)) } := by
  simp [engUpdate]

theorem bitLength_toNat {data : Bytes} (h : FitsCounter data) : (bitLength data).toNat = 8 * data.length :=
  Nat.mod_eq_of_lt h

theorem engUpdate_engInit_count {data : Bytes} (h : FitsCounter data) :
    (engUpdate engInit data).count.toNat = 8 * data.length := by
  rw [engUpdate_engInit, bitLength_toNat h]

end Sys2Proof.Machine

namespace Sys2Proof

open Machine

/-- Whole blocks consumed first, then the blocks of what follows them. -/
theorem overBlocks_btBlocks (q : Nat) (s : DigestState) (m p : Bytes) (h : 64 * q ≤ m.length) :
    overBlocks (btBlocks q s m) (m.drop (64 * q) ++ p) = overBlocks s (m ++ p) := by
  have hlen : (m ++ p).length / 64 = q + (m.drop (64 * q) ++ p).length / 64 := by
    simp only [List.length_append, List.length_drop]
    omega
  rw [← btBlocks_eq_overBlocks, ← btBlocks_eq_overBlocks, hlen, btBlocks_add, btBlocks_append q s m p h,
    List.drop_append_of_le_length h]

/-- MD5 is BT over the blocks of the padded message (R129). -/
theorem md5_eq_overBlocks (m : Bytes) :
    md5 m = (overBlocks engInit.words (m ++ pad (bitLength m) (m.length % 64))).bytes := by
  have hbuf : (engUpdate engInit m).buf.length = m.length % 64 := by
    rw [engUpdate_buf_length, engInit_buf, List.length_nil, Nat.zero_add]
  rw [md5, engFinal_eq_overBlocks, hbuf, engUpdate_engInit]
  exact congrArg DigestState.bytes (overBlocks_btBlocks _ _ m _ (Nat.mul_div_le _ 64))

/-- Settles O23: `engUpdate` is R123's definition, with the loop over blocks written as a recursion. -/
theorem engUpdateConsumesWholeBlocks : Obligations.EngUpdateConsumesWholeBlocks := fun e data hlim =>
  ⟨btBlocks_eq_overBlocks e.words _, engUpdate_count_toNat e data hlim, rfl, engUpdate_buf_length_le e data⟩

/-- Settles O24: `foldl_feedByte` for the words and the buffer, and both forms add the same bits to the counter. -/
theorem byteLoopEqualsBlockLoop : Obligations.ByteLoopEqualsBlockLoop := by
  intro e data hbuf
  rw [engUpdateBytewise, foldl_feedByte data hbuf]
  rfl

theorem getElem?_setSlot_self {s : State} {c : SlotNo} {v : Slot} (h : c.val < s.nctx) :
    (s.setSlot c v).ctx[c.val]? = some v :=
  List.getElem?_set_self h

/-- An UPDATE of an ACTIVE slot within the counter limit, its effect on the slots read off the context file. -/
theorem exec_update_of_getElem? {s : State} {c : SlotNo} {e : Engine} {data : Bytes} (hh : s.halt = false)
    (hs : s.ctx[c.val]? = some (.active e)) (hlen : data.length ≤ 2 ^ 32 - 1)
    (hlim : e.count.toNat + 8 * data.length < 2 ^ 64) :
    exec (.update c data) s = .next ((s.setSlot c (.active (engUpdate e data))).respond .ok []) :=
  exec_update hh (wf_update_iff.mpr ⟨State.lt_of_getElem? s c _ hs, hlen⟩) (State.slot_of_getElem? s c _ hs) hlim

/-- Settles O25: `engUpdate_engUpdate`, and for the commands a slot written twice holds the second value. -/
theorem chunksMakeNoDifference : Obligations.ChunksMakeNoDifference := by
  refine ⟨engUpdate_engUpdate, fun s cd a b e hh hs hlen hlim => ?_⟩
  obtain ⟨hjoin, hbits⟩ : a.length + b.length ≤ 2 ^ 32 - 1 ∧
      e.count.toNat + 8 * (a.length + b.length) < 2 ^ 64 := by
    rw [← List.length_append]
    exact ⟨hlen, hlim⟩
  have hcount := engUpdate_count_toNat e a (by omega)
  refine ⟨_, _, _, exec_update_of_getElem? hh hs (by omega) (by omega),
    exec_update_of_getElem? hh (getElem?_setSlot_self (State.lt_of_getElem? s cd _ hs)) (by omega)
      (by rw [hcount]; omega),
    exec_update_of_getElem? hh hs hlen hlim, ?_⟩
  simp

/-- Settles O29: `md5_eq_overBlocks` with R125's number of zeros, and `foldl_engUpdate` from the initial value. -/
theorem md5IsTheDigestOfThePaddedMessage : Obligations.Md5IsTheDigestOfThePaddedMessage := by
  refine ⟨fun m _ => ?message, fun chunks => ?chunks⟩
  case message =>
    have hz : (55 + 64 * m.length - m.length) % 64 = padZeros (m.length % 64) := by
      unfold padZeros
      omega
    have hp : m ++ [0x80] ++ List.replicate ((55 + 64 * m.length - m.length) % 64) 0x00 ++
        le64 (BitVec.ofNat 64 (8 * m.length)) = m ++ pad (bitLength m) (m.length % 64) := by
      rw [hz]
      simp [pad, zeros, bitLength]
    have hblocks := pad_length (bitLength m) (m.length % 64)
    simp only [hp]
    refine ⟨?_, md5_eq_overBlocks m⟩
    rw [List.length_append]
    omega
  case chunks =>
    exact congrArg engFinal (foldl_engUpdate engInit [] chunks)

/-- Settles O30: `engUpdate_engInit`, with the counter read as eight times the length of the data. -/
theorem slotHoldsTheUnconsumedTail : Obligations.SlotHoldsTheUnconsumedTail := by
  rintro e data hfit rfl
  have hcount := engUpdate_engInit_count hfit
  have hq : (engUpdate engInit data).count.toNat / 512 = data.length / 64 := by omega
  have hcut : 64 * (data.length / 64) ≤ data.length := Nat.mul_div_le _ 64
  refine ⟨engUpdate_buf_length_le _ _, by omega, ?length, ?words, ?buf⟩
  case length => rw [engUpdate_buf_length, hcount, engInit_buf, List.length_nil]; omega
  case words =>
    have hblocks : (data.take (64 * (data.length / 64))).length = 64 * (data.length / 64) := by simpa using hcut
    rw [hq, ← btBlocks_eq_overBlocks, hblocks, Nat.mul_div_cancel_left _ (by decide), engUpdate_engInit]
    calc btBlocks (data.length / 64) engInit.words data
        = btBlocks (data.length / 64) engInit.words
            (data.take (64 * (data.length / 64)) ++ data.drop (64 * (data.length / 64))) := by
          rw [List.take_append_drop]
      _ = btBlocks (data.length / 64) engInit.words (data.take (64 * (data.length / 64))) :=
          btBlocks_append _ _ _ _ hblocks.ge
  case buf => rw [hq, engUpdate_engInit]

end Sys2Proof

/-! ## PROOFS. Reading HEX back, and runs of handles (spec/44_md5_oneshot_hex.md R174, spec/45_hash_handle.md R184) -/

namespace Sys2Proof

open Machine

/-! ### R174 -/

theorem hexVal_hexDigit : ∀ x : Fin 16, hexVal (hexDigit x) = x.val := by decide

theorem byte_eq_nibbles (x : Byte) : x.toNat = 16 * (highNibble x).val + (lowNibble x).val :=
  (Nat.div_add_mod x.toNat 16).symm

/-- Byte `k` from its two digits. -/
theorem byte_of_hex {b : Bytes} {k : Nat} {x : Byte} (h : b[k]? = some x) :
    x.toNat = 16 * hexVal ((hex b).getD (2 * k) 0) + hexVal ((hex b).getD (2 * k + 1) 0) := by
  have hhigh : (hex b)[2 * k]? = some (hexDigit (highNibble x)) := hex_getElem? h (j := 0) (by decide)
  have hlow : (hex b)[2 * k + 1]? = some (hexDigit (lowNibble x)) := hex_getElem? h (j := 1) (by decide)
  rw [List.getD_eq_getElem?_getD, List.getD_eq_getElem?_getD, hhigh, hlow, Option.getD_some, Option.getD_some,
    hexVal_hexDigit, hexVal_hexDigit]
  exact byte_eq_nibbles x

/-- Settles O32: `byte_of_hex`; two byte strings with one HEX have one length and the same bytes. -/
theorem hexCanBeReadBack : Obligations.HexCanBeReadBack := by
  refine ⟨fun b k x => byte_of_hex, fun b b' h => ?_⟩
  have hlen : b.length = b'.length := by
    have hhex := congrArg List.length h
    rw [hex_length, hex_length] at hhex
    omega
  refine List.ext_getElem hlen fun k hk hk' => BitVec.eq_of_toNat_eq ?_
  rw [byte_of_hex (List.getElem?_eq_getElem hk), byte_of_hex (List.getElem?_eq_getElem hk'), h]

/-! ### R184 -/

/-- HEXDIGEST of an ACTIVE slot, its value read off the context file. -/
theorem exec_hexdigest_of_getElem? {s : State} {c : SlotNo} {e : Engine} (hh : s.halt = false)
    (hs : s.ctx[c.val]? = some (.active e)) :
    exec (.hexdigest c) s = .next (s.respond .ok (hex (engFinal e))) :=
  exec_hexdigest hh (SlotNo.legal_iff.mpr (State.lt_of_getElem? s c _ hs)) (State.slot_of_getElem? s c _ hs)

/-- Settles O38: the slot holds `engInit`, then the engine values of `a` and of `a ++ b`; HEXDIGEST leaves it. -/
theorem readingADigestDoesNotDisturbTheHandle : Obligations.ReadingADigestDoesNotDisturbTheHandle := by
  intro s c a b hh hc ha hb
  have hzero : engInit.count.toNat = 0 := rfl
  have hlim : engInit.count.toNat + 8 * a.length < 2 ^ 64 := by omega
  have hcount := engUpdate_count_toNat engInit a hlim
  have hlim' : (engUpdate engInit a).count.toNat + 8 * b.length < 2 ^ 64 := by omega
  refine ⟨_, _, _, _, _, exec_init hh (SlotNo.legal_iff.mpr hc),
    exec_update_of_getElem? hh (getElem?_setSlot_self hc) ha hlim,
    exec_hexdigest_of_getElem? hh (getElem?_setSlot_self (by simpa)),
    exec_update_of_getElem? hh (getElem?_setSlot_self (by simpa)) hb hlim',
    exec_hexdigest_of_getElem? hh (getElem?_setSlot_self (by simpa)), ?_⟩
  simp [Status.code, md5]

/-- Settles O39: COPY leaves `e` in both slots, and the UPDATE of the one leaves the other. -/
theorem copiesAreIndependent : Obligations.CopiesAreIndependent := by
  intro s c d x e hh hne hd hs hx hlim
  have hval : d.val ≠ c.val := fun h => hne (Fin.ext h.symm)
  have hc := State.lt_of_getElem? s c _ hs
  have hsrc : (s.setSlot d (.active e)).ctx[c.val]? = some (.active e) := getElem?_setSlot_copy hs
  have hdst : ((s.setSlot d (.active e)).setSlot c (.active (engUpdate e x))).ctx[d.val]? = some (.active e) :=
    (List.getElem?_set_ne hval.symm).trans (getElem?_setSlot_self hd)
  have hupd : ((s.setSlot d (.active e)).setSlot c (.active (engUpdate e x))).ctx[c.val]? =
      some (.active (engUpdate e x)) := getElem?_setSlot_self (by simpa)
  refine ⟨_, _, _, _, exec_copy hh (wf_copy_iff.mpr ⟨hd, hc⟩) (State.slot_of_getElem? s c _ hs),
    exec_update_of_getElem? hh hsrc hx hlim, exec_hexdigest_of_getElem? hh hdst,
    exec_hexdigest_of_getElem? hh hupd, ?_⟩
  simp [Status.code]

end Sys2Proof

/-! ## PROOFS. A64 is injective (spec/42_apr1_codec.md R143) -/

namespace Sys2Proof

open Machine

theorem a64Char_injective : ∀ x < 64, ∀ y < 64, a64Char x = a64Char y → x = y := by decide +kernel

/-- The characters of `to64` are of the alphabet. -/
theorem mem_to64 {v n : Nat} {c : Byte} (h : c ∈ to64 v n) : ∃ x, x < 64 ∧ c = a64Char x := by
  obtain ⟨j, hj⟩ := List.getElem?_of_mem h
  have hlt : j < n := by simpa using (List.getElem?_eq_some_iff.mp hj).1
  rw [to64_getElem? v n j hlt] at hj
  exact ⟨_, Nat.mod_lt _ (by decide), (Option.some.inj hj).symm⟩

/-- `n` characters determine `6 n` bits. -/
theorem to64_injective {n v w : Nat} (hv : v < 64 ^ n) (hw : w < 64 ^ n) (h : to64 v n = to64 w n) : v = w := by
  induction n generalizing v w with
  | zero => rw [Nat.pow_zero] at hv hw; omega
  | succ n ih =>
    obtain ⟨hlow, hhigh⟩ := List.cons.inj h
    have hrec : v >>> 6 = w >>> 6 := by
      rw [Nat.pow_succ] at hv hw
      refine ih ?_ ?_ hhigh <;> rw [Nat.shiftRight_eq_div_pow] <;> omega
    have hchar : v % 64 = w % 64 := by
      simp only [Nat.and_two_pow_sub_one_eq_mod _ 6] at hlow
      exact a64Char_injective _ (Nat.mod_lt _ (by decide)) _ (Nat.mod_lt _ (by decide)) hlow
    rw [Nat.shiftRight_eq_div_pow, Nat.shiftRight_eq_div_pow] at hrec
    omega

/-- The characters of a group determine its three bytes. -/
theorem groupChars_injective {d d' : Bytes} {p : Nat × Nat × Nat} (h : groupChars d p = groupChars d' p) :
    d.getD p.1 0 = d'.getD p.1 0 ∧ d.getD p.2.1 0 = d'.getD p.2.1 0 ∧ d.getD p.2.2 0 = d'.getD p.2.2 0 := by
  have hlt : ∀ (d : Bytes) (k : Nat), (d.getD k 0).toNat < 256 := fun d k => (d.getD k 0).isLt
  have h1 := hlt d p.1; have h2 := hlt d p.2.1; have h3 := hlt d p.2.2
  have h1' := hlt d' p.1; have h2' := hlt d' p.2.1; have h3' := hlt d' p.2.2
  have hpack := to64_injective (by rw [packGroup_eq]; omega) (by rw [packGroup_eq]; omega) h
  rw [packGroup_eq, packGroup_eq] at hpack
  refine ⟨?_, ?_, ?_⟩ <;> refine BitVec.eq_of_toNat_eq ?_ <;> omega

/-- Two lists of blocks of one length are equal block by block. -/
theorem eq_of_flatMap_eq {α β : Type} {f g : α → List β} (hlen : ∀ x, (f x).length = (g x).length) {l : List α}
    (h : l.flatMap f = l.flatMap g) : ∀ x ∈ l, f x = g x := by
  induction l with
  | nil => nofun
  | cons x xs ih =>
    rw [List.flatMap_cons, List.flatMap_cons] at h
    obtain ⟨hx, hxs⟩ := List.append_inj h (hlen x)
    exact List.forall_mem_cons.mpr ⟨hx, ih hxs⟩

/-- Every byte of a digest but byte 11 is in one of the groups (R142). -/
theorem mem_group_of_lt {k : Nat} (h : k < 16) (hk : k ≠ 11) : ∃ p ∈ groups, k = p.1 ∨ k = p.2.1 ∨ k = p.2.2 := by
  revert k
  decide

/-- What A64 determines: every byte of a digest. -/
theorem getD_eq_of_a64_eq {d d' : Bytes} (h : a64 d = a64 d') {k : Nat} (hk : k < 16) :
    d.getD k 0 = d'.getD k 0 := by
  rw [a64_eq_groups, a64_eq_groups] at h
  obtain ⟨hgroups, hlast⟩ := List.append_inj h (by rw [flatMap_groupChars_length, flatMap_groupChars_length])
  by_cases h11 : k = 11
  · have hlt : ∀ d : Bytes, (d.getD 11 0).toNat < 64 ^ 2 := fun d => lt_trans (d.getD 11 0).isLt (by decide)
    exact h11 ▸ BitVec.eq_of_toNat_eq (to64_injective (hlt d) (hlt d') hlast)
  · obtain ⟨p, hp, hin⟩ := mem_group_of_lt hk h11
    obtain ⟨hx, hy, hz⟩ := groupChars_injective (eq_of_flatMap_eq (by simp) hgroups p hp)
    obtain rfl | rfl | rfl := hin
    · exact hx
    · exact hy
    · exact hz

/-- Settles O42: `getD_eq_of_a64_eq` at each of the 16 bytes, and `mem_to64` for each part of A64. -/
theorem a64IsInjective : Obligations.A64IsInjective := by
  refine ⟨fun d d' hd hd' h => ?_, fun d c _ hc => ?_⟩
  · refine List.ext_getElem (hd.trans hd'.symm) fun k hk hk' => ?_
    rw [← List.getD_eq_getElem d 0 hk, ← List.getD_eq_getElem d' 0 hk']
    exact getD_eq_of_a64_eq h (hd ▸ hk)
  · rw [a64_eq_groups, List.mem_append, List.mem_flatMap] at hc
    obtain ⟨p, -, hc⟩ | hc := hc
    · exact mem_to64 hc
    · exact mem_to64 hc

end Sys2Proof

/-! ## PROOFS. APR1 with whole messages, and its commands (spec/43_apr1_hasher.md) -/

namespace Sys2Proof

open Machine

/-! ### Step 3 (R153) -/

theorem apr1Round_eq_md5 (password s8 digest : Bytes) (round : Nat) :
    apr1Round password s8 digest round = md5 (roundMessage password s8 digest round) := by
  unfold apr1Round roundMessage md5
  by_cases h3 : round % 3 = 0 <;> by_cases h7 : round % 7 = 0 <;> simp [h3, h7]

/-- The residues a round looks at are those of the round modulo 42. -/
theorem roundMessage_mod (password s8 digest : Bytes) (round : Nat) :
    roundMessage password s8 digest (round % 42) = roundMessage password s8 digest round := by
  have h2 : round % 42 % 2 = round % 2 := Nat.mod_mod_of_dvd _ (by decide)
  have h3 : round % 42 % 3 = round % 3 := Nat.mod_mod_of_dvd _ (by decide)
  have h7 : round % 42 % 7 = round % 7 := Nat.mod_mod_of_dvd _ (by decide)
  rw [roundMessage, h2, h3, h7, roundMessage]

/-- Settles O44: the updates of a round are one update with its message. -/
theorem roundDependsOnRoundModulo42 : Obligations.RoundDependsOnRoundModulo42 := fun password s8 digest round =>
  ⟨apr1Round_eq_md5 .., by rw [apr1Round_eq_md5, apr1Round_eq_md5, roundMessage_mod]⟩

/-! ### Step 2 (R152) -/

/-- The first `n` bytes of `binary` repeated (R155). -/
def repeated (binary : Bytes) (n : Nat) : Bytes := (List.range n).map fun k => binary.getD (k % 16) 0

/-- The bytes that the binary digits of `n` stand for, least significant first (R155). -/
def digitBytes (password : Bytes) (n : Nat) : Bytes :=
  (Nat.digits 2 n).map fun digit => if digit = 1 then 0x00 else password.getD 0 0

/-- One pass of the first loop: the next sixteen bytes of the repeated string, or what is left of it. -/
theorem repeated_eq_take_append {binary : Bytes} (h : binary.length = 16) (n : Nat) :
    repeated binary n = binary.take (min n 16) ++ repeated binary (n - 16) := by
  have htake : ∀ j ≤ 16, repeated binary j = binary.take j := fun j hj => by
    refine List.ext_getElem (by simp [repeated, h, hj]) fun k hk _ => ?_
    have hlt : k < j := by simpa [repeated] using hk
    simp [repeated, Nat.mod_eq_of_lt (show k < 16 by omega), h, show k < 16 by omega]
  obtain hle | hgt := le_or_gt n 16
  · rw [Nat.min_eq_left hle, Nat.sub_eq_zero_of_le hle, htake n hle]
    exact (List.append_nil _).symm
  · obtain ⟨m, rfl⟩ := Nat.exists_eq_add_of_lt hgt
    rw [Nat.min_eq_right (by omega), ← htake 16 le_rfl, show 16 + m + 1 = 16 + (m + 1) by omega,
      Nat.add_sub_cancel_left, repeated, List.range_add, List.map_append, List.map_map]
    simp [repeated, Function.comp_def]

/-- The first loop feeds the repeated string. -/
theorem feedBinary_eq {binary : Bytes} (h : binary.length = 16) {fuel n : Nat} (hn : n ≤ fuel) (e : Engine)
    (m : Bytes) : feedBinary binary fuel n (engUpdate e m) = engUpdate e (m ++ repeated binary n) := by
  induction fuel generalizing n m with
  | zero =>
    obtain rfl := Nat.le_zero.mp hn
    simp [feedBinary, repeated]
  | succ fuel ih =>
    rw [feedBinary]
    split
    case isTrue h0 => simp [h0, repeated]
    case isFalse h0 =>
      rw [engUpdate_engUpdate, ih (by omega), List.append_assoc, ← repeated_eq_take_append h]

/-- The second loop feeds a byte for each binary digit. -/
theorem feedBits_eq (password : Bytes) {fuel n : Nat} (hn : n ≤ fuel) (e : Engine) (m : Bytes) :
    feedBits password fuel n (engUpdate e m) = engUpdate e (m ++ digitBytes password n) := by
  induction fuel generalizing n m with
  | zero =>
    obtain rfl := Nat.le_zero.mp hn
    simp [feedBits, digitBytes]
  | succ fuel ih =>
    rw [feedBits]
    split
    case isTrue h0 => simp [h0, digitBytes]
    case isFalse h0 =>
      have hdigits : digitBytes password n =
          (if n % 2 = 1 then [0x00] else [password.getD 0 0]) ++ digitBytes password (n >>> 1) := by
        rw [digitBytes, Nat.digits_def' (by decide) (by omega), List.map_cons, Nat.shiftRight_one, digitBytes]
        split <;> rfl
      rw [engUpdate_engUpdate, ih (by rw [Nat.shiftRight_one]; omega), List.append_assoc, ← hdigits]

theorem apr1Primary_eq_md5 (password s8 : Bytes) {binary : Bytes} (h : binary.length = 16) :
    apr1Primary password s8 binary = md5 (primaryMessage password s8 binary) := by
  rw [apr1Primary, apr1PrimaryEngine, engUpdate_engUpdate, engUpdate_engUpdate, feedBinary_eq h le_rfl,
    feedBits_eq password le_rfl, ← List.append_assoc password]
  rfl

/-! ### The whole string (R154, R155) -/

theorem apr1Binary_eq_md5 (password s8 : Bytes) : apr1Binary password s8 = md5 (password ++ s8 ++ password) := by
  rw [apr1Binary, engUpdate_engUpdate, engUpdate_engUpdate, ← List.append_assoc]
  rfl

theorem apr1Digest_eq (password salt : Bytes) :
    apr1Digest password salt =
      (List.range 1000).foldl (fun d round => md5 (roundMessage password (salt8 salt) d round))
        (md5 (primaryMessage password (salt8 salt) (md5 (password ++ salt8 salt ++ password)))) := by
  rw [apr1Digest, apr1Binary_eq_md5, apr1Primary_eq_md5 _ _ (md5_length _)]
  exact List.foldl_ext _ _ _ fun d round _ => apr1Round_eq_md5 password (salt8 salt) d round

/-- Settles O45: each of the three steps of the digest is MD5 of its whole message. -/
theorem apr1EqualsItsWholeMessageForm : Obligations.Apr1EqualsItsWholeMessageForm := fun password salt =>
  congrArg (fun digest => apr1Magic ++ salt8 salt ++ [dollar] ++ a64 digest) (apr1Digest_eq password salt)

/-! ### Stored strings (R157, R158) -/

/-- The salt is what stands before the first `$`. -/
theorem takeWhile_ne_dollar {salt : Bytes} (hash : Bytes) (h : dollar ∉ salt) :
    (salt ++ dollar :: hash).takeWhile (· ≠ dollar) = salt := by
  have hsalt : ∀ x ∈ salt, decide (x ≠ dollar) = true := fun x hx => decide_eq_true fun hd => h (hd ▸ hx)
  rw [List.takeWhile_append_of_pos hsalt]
  simp

/-- A stored string of R157's form parses to its salt. -/
theorem parseStored_form {salt : Bytes} (hash : Bytes) (h : dollar ∉ salt) :
    parseStored (apr1Magic ++ salt ++ [dollar] ++ hash) = some salt := by
  have hcut : apr1Magic ++ salt ++ [dollar] ++ hash = apr1Magic ++ (salt ++ dollar :: hash) := by simp
  have hmem : dollar ∈ salt ++ dollar :: hash := by simp
  rw [hcut, parseStored, if_pos (List.take_left' apr1Magic_length), List.drop_left' apr1Magic_length]
  exact (if_pos hmem).trans (congrArg some (takeWhile_ne_dollar hash h))

/-- A stored string that parses is of R157's form. -/
theorem parseStored_eq_some {stored salt : Bytes} (h : parseStored stored = some salt) :
    dollar ∉ salt ∧ ∃ hash, stored = apr1Magic ++ salt ++ [dollar] ++ hash := by
  unfold parseStored at h
  split at h
  case isFalse => cases h
  case isTrue hmagic =>
    dsimp only at h
    split at h
    case isFalse => cases h
    case isTrue hmem =>
      obtain ⟨before, hash, htl, hbefore⟩ := List.eq_append_cons_of_mem hmem
      rw [htl, takeWhile_ne_dollar hash hbefore] at h
      cases h
      refine ⟨hbefore, hash, ?_⟩
      rw [← List.take_append_drop 6 stored, hmagic, htl]
      simp

theorem salt8_salt8 (salt : Bytes) : salt8 (salt8 salt) = salt8 salt := by
  simp [salt8]

/-- Only the first eight bytes of the salt count (R150). -/
theorem apr1_salt8 (password salt : Bytes) : apr1 password (salt8 salt) = apr1 password salt := by
  simp only [apr1, apr1Digest, salt8_salt8]

theorem parseStored_apr1 (password : Bytes) {salt : Bytes} (h : dollar ∉ salt8 salt) :
    parseStored (apr1 password salt) = some (salt8 salt) :=
  parseStored_form _ h

theorem validate_eq_some {stored salt : Bytes} (password : Bytes) (h : parseStored stored = some salt) :
    validate password stored = some (decide (apr1 password salt = stored)) := by
  rw [validate, h, Option.map_some]

/-- Settles O49: a stored string parses to its salt; if its salt were that of an apr1 string it would be its own first
eight bytes. -/
theorem ownHashValidatesAndLongSaltsDoNot : Obligations.OwnHashValidatesAndLongSaltsDoNot := by
  refine ⟨fun password salt h => ?own, fun password salt hash h hlong => ?long⟩
  case own =>
    rw [validate_eq_some password (parseStored_apr1 password h), apr1_salt8, decide_eq_true rfl]
  case long =>
    have hparse := parseStored_form hash h
    rw [show [0x24, 0x61, 0x70, 0x72, 0x31, 0x24] ++ salt ++ [0x24] ++ hash = apr1Magic ++ salt ++ [dollar] ++ hash
      from rfl, validate_eq_some password hparse]
    refine congrArg some (decide_eq_false fun hsame => ?_)
    have hsalt : salt8 salt = salt := by
      have hown := parseStored_apr1 password (salt := salt) fun hd => h (List.mem_of_mem_take hd)
      rw [hsame, hparse] at hown
      exact (Option.some.inj hown).symm
    have hlen := congrArg List.length hsalt
    rw [salt8_length] at hlen
    omega

/-! ### APR1ENC and APR1VAL (R156, R159) -/

theorem wf_apr1enc_iff {nctx : Nat} {password salt : Bytes} :
    (Instr.apr1enc password salt).wf nctx = true ↔ password.length ≤ 2 ^ 32 - 1 ∧ salt.length ≤ 2 ^ 32 - 1 :=
  Bool.and_eq_true_iff.trans (and_congr Bytes.isVar_iff Bytes.isVar_iff)

theorem wf_apr1val_iff {nctx : Nat} {password stored : Bytes} :
    (Instr.apr1val password stored).wf nctx = true ↔ password.length ≤ 2 ^ 32 - 1 ∧ stored.length ≤ 2 ^ 32 - 1 :=
  wf_apr1enc_iff (nctx := nctx)

/-- Settles O47: `exec_apr1enc` after the checks that come first. -/
theorem apr1encAnswersTheApr1String : Obligations.Apr1encAnswersTheApr1String := fun _ password salt =>
  ⟨(List.append_assoc ..).symm, checksFirst_of_wf wf_apr1enc_iff fun hh hw =>
    ⟨apr1_length password salt, onlyAnswers_of_exec (exec_apr1enc hh hw)⟩⟩

/-- Settles O48: `parseStored_form` for a stored string of the form, `parseStored_eq_some` for one that is not. -/
theorem apr1valComparesOrReportsMalformed : Obligations.Apr1valComparesOrReportsMalformed := by
  refine fun s password stored => ⟨(List.append_assoc ..).symm, checksFirst_of_wf wf_apr1val_iff fun hh hw =>
    ⟨fun salt hash hsalt hform => ?compares, fun hform => ?malformed⟩⟩
  case compares =>
    have hparse : parseStored stored = some salt := by
      rw [hform]
      exact parseStored_form hash hsalt
    have hanswer := onlyAnswers_of_exec (exec_apr1val_some hh hw (validate_eq_some password hparse))
    simpa [boolByte, Status.code] using hanswer
  case malformed =>
    have hparse : parseStored stored = none := by
      cases hp : parseStored stored with
      | none => rfl
      | some salt =>
        obtain ⟨hsalt, hash, hstored⟩ := parseStored_eq_some hp
        exact absurd hstored (hform salt hash hsalt)
    exact onlyAnswers_of_exec (exec_apr1val_none hh hw (validate_eq_none hparse))

end Sys2Proof

/-! ## PROOFS. What a command depends on and what it changes (spec/20_memory.md R59, R60, spec/60_exceptions.md R190)

`exec` factors through a reply: a function of HALT, NCTX and the slot the command reads, which `State.apply` then
writes and responds. -/

namespace Sys2Proof.Machine

/-! ### Replies -/

/-- What a command that completes writes to the slot of `writesSlot`, if it writes, and what it responds. -/
structure Reply where
  write : Option Slot
  status : Status
  result : Bytes

/-- An error: nothing is written (R190). -/
def Reply.error (st : Status) : Reply := ⟨none, st, []⟩

/-- Status OK with no slot written. -/
def Reply.ok (result : Bytes) : Reply := ⟨none, .ok, result⟩

/-- The reply of a legal command to the engine value `e` it reads; none is the refusal of R127. A command that reads no
slot replies the same to every `e`. -/
def replyTo (e : Engine) : Instr → Option Reply
  | .init _ => some ⟨some (.active engInit), .ok, []⟩
  | .update _ data =>
    if e.count.toNat + 8 * data.length < 2 ^ 64 then some ⟨some (.active (engUpdate e data)), .ok, []⟩ else none
  | .final _ => some ⟨some .idle, .ok, engFinal e⟩
  | .copy _ _ => some ⟨some (.active e), .ok, []⟩
  | .finalhex _ => some ⟨some .idle, .ok, hex (engFinal e)⟩
  | .digest _ => some (.ok (engFinal e))
  | .hexdigest _ => some (.ok (hex (engFinal e)))
  | .md5 data => some (.ok (hex (md5 data)))
  | .xform state block => some (.ok (bt (.ofBytes state) block).bytes)
  | .hexenc dg => some (.ok (hex dg))
  | .a64enc dg => some (.ok (a64 dg))
  | .apr1enc password salt => some (.ok (apr1 password salt))
  | .apr1val password stored =>
    match validate password stored with
    | none => some (.error .malformed)
    | some ok => some (.ok [boolByte ok])
  | .attr sel => some (.ok (attrValue sel))

/-- The checks of R196, then the reply to the slot read. -/
def replyOf (i : Instr) (halt : Bool) (nctx : Nat) (v : Slot) : Option Reply :=
  if halt then some (.error .invariant)
  else if i.wf nctx then
    match v with
    | .idle => some (.error .seq)
    | .active e => replyTo e i
  else some (.error .illegal)

/-- The slot a command reads; for a command that reads none, some ACTIVE slot, whose value it ignores. -/
def State.read (s : State) (i : Instr) : Slot := ((readsSlot i).map s.slot).getD (.active engInit)

/-- The reply of a command in a state. -/
def State.reply (s : State) (i : Instr) : Option Reply := replyOf i s.halt s.nctx (s.read i)

/-- The write of a reply. -/
def State.write (s : State) : Option SlotNo → Option Slot → State
  | some c, some v => s.setSlot c v
  | _, _ => s

/-- A reply of the command `i` carried out. -/
def State.apply (s : State) (i : Instr) : Option Reply → Result
  | none => .refused .counterOverflow
  | some r => .next ((s.write (writesSlot i) r.write).respond r.status r.result)

variable {s t : State} {i : Instr}

theorem State.apply_error (s : State) (i : Instr) (st : Status) :
    s.apply i (some (.error st)) = .next (s.respond st []) := by
  cases h : writesSlot i <;> simp [State.apply, State.write, Reply.error, h]

/-- The factorisation for a legal command that reads an ACTIVE slot, or none. -/
theorem exec_eq_apply_replyTo {e : Engine} (hh : s.halt = false) (hw : i.wf s.nctx = true)
    (hv : s.read i = .active e) : exec i s = s.apply i (replyTo e i) := by
  cases i with
  | init => exact exec_init hh hw
  | update c data =>
    rw [replyTo]
    split
    case isTrue hlim => exact exec_update hh hw hv hlim
    case isFalse hlim => exact exec_update_overflow hh hw hv hlim
  | final => exact exec_final hh hw hv
  | copy => exact exec_copy hh hw hv
  | finalhex => exact exec_finalhex hh hw hv
  | digest => exact exec_digest hh hw hv
  | hexdigest => exact exec_hexdigest hh hw hv
  | md5 => exact exec_md5 hh hw
  | xform => exact exec_xform hh hw
  | hexenc => exact exec_hexenc hh hw
  | a64enc => exact exec_a64enc hh hw
  | apr1enc => exact exec_apr1enc hh hw
  | apr1val =>
    rw [replyTo]
    split
    case h_1 hval => exact exec_apr1val_none hh hw hval
    case h_2 ok hval => exact exec_apr1val_some hh hw hval
  | attr => exact exec_attr hh _

/-- A command that reads an IDLE slot reads that slot. -/
theorem readsSlot_of_read_idle (h : s.read i = .idle) : ∃ c, readsSlot i = some c ∧ s.slot c = .idle := by
  unfold State.read at h
  cases hr : readsSlot i with
  | none => rw [hr] at h; cases h
  | some c => exact ⟨c, rfl, by rw [hr] at h; exact h⟩

/-- The factorisation: a command is its reply, carried out. -/
theorem exec_eq_apply (i : Instr) (s : State) : exec i s = s.apply i (s.reply i) := by
  unfold State.reply replyOf
  split
  case isTrue hh => rw [State.apply_error]; exact exec_halted i hh
  case isFalse hh =>
    replace hh : s.halt = false := Bool.eq_false_iff.mpr hh
    split
    case isFalse hw => rw [State.apply_error]; exact exec_illegal hh (Bool.eq_false_iff.mpr hw)
    case isTrue hw =>
      split
      case h_1 hv =>
        obtain ⟨c, hr, hs⟩ := readsSlot_of_read_idle hv
        rw [State.apply_error]
        exact exec_seq hh hw hr hs
      case h_2 e hv => exact exec_eq_apply_replyTo hh hw hv

/-- A command that answers a next state carried out a reply. -/
theorem exec_next_iff : exec i s = .next t ↔
    ∃ r, s.reply i = some r ∧ t = (s.write (writesSlot i) r.write).respond r.status r.result := by
  rw [exec_eq_apply]
  cases s.reply i with
  | none => simp [State.apply]
  | some r => simp [State.apply, eq_comm]

/-! ### What a reply is made of -/

/-- Everything a reply can be: an error, or the reply of a legal command to the engine value it reads. -/
theorem reply_cases {r : Reply} (h : s.reply i = some r) :
    (∃ st, st ≠ .ok ∧ r = .error st) ∨
    (i.wf s.nctx = true ∧ ∃ e, s.read i = .active e ∧ replyTo e i = some r) := by
  unfold State.reply replyOf at h
  split at h
  · cases h; exact .inl ⟨.invariant, nofun, rfl⟩
  · split at h
    case isFalse => cases h; exact .inl ⟨.illegal, nofun, rfl⟩
    case isTrue hw =>
      split at h
      case h_1 => cases h; exact .inl ⟨.seq, nofun, rfl⟩
      case h_2 e hv => exact .inr ⟨hw, e, hv, h⟩

/-! ### Reading and writing -/

@[simp] theorem State.write_halt (c : Option SlotNo) (v : Option Slot) : (s.write c v).halt = s.halt := by
  cases c <;> cases v <;> rfl

@[simp] theorem State.write_nctx (c : Option SlotNo) (v : Option Slot) : (s.write c v).nctx = s.nctx := by
  cases c <;> cases v <;> simp [State.write]

@[simp] theorem State.write_responses (c : Option SlotNo) (v : Option Slot) :
    (s.write c v).responses = s.responses := by
  cases c <;> cases v <;> rfl

@[simp] theorem State.write_none (c : Option SlotNo) : s.write c none = s := by
  cases c <;> rfl

@[simp] theorem State.write_some (c : SlotNo) (v : Slot) : s.write (some c) (some v) = s.setSlot c v := rfl

@[simp] theorem State.respond_read (st : Status) (r : Bytes) : (s.respond st r).read i = s.read i := rfl

/-- A command reads the same in two states that agree on the slot it reads. -/
theorem State.read_congr {s' : State} (h : ∀ c, readsSlot i = some c → s.ctx[c.val]? = s'.ctx[c.val]?) :
    s.read i = s'.read i := by
  unfold State.read
  cases hr : readsSlot i with
  | none => rfl
  | some c => simp [State.slot, List.getD_eq_getElem?_getD, h c hr]

/-- A command reads the same after a write to a slot it does not read. -/
theorem State.write_read {w : Option SlotNo} (v : Option Slot) (h : ∀ c, w = some c → readsSlot i ≠ some c) :
    (s.write w v).read i = s.read i := by
  cases w with
  | none => cases v <;> rfl
  | some c =>
    cases v with
    | none => rfl
    | some v =>
      unfold State.read
      cases hr : readsSlot i with
      | none => rfl
      | some d => exact State.setSlot_slot_of_ne s c v fun hdc => h c rfl (hdc ▸ hr)

/-- Its reply is then the same. -/
theorem reply_write_respond {w : Option SlotNo} (v : Option Slot) (st : Status) (r : Bytes)
    (h : ∀ c, w = some c → readsSlot i ≠ some c) : ((s.write w v).respond st r).reply i = s.reply i := by
  simp [State.reply, State.write_read v h]

/-- Writes to two slots commute. -/
theorem State.write_write_ctx {w w' : Option SlotNo} (v v' : Option Slot) (st st' : Status) (r r' : Bytes)
    (h : ∀ c, w = some c → w' ≠ some c) :
    (((s.write w v).respond st r).write w' v').ctx = (((s.write w' v').respond st' r').write w v).ctx := by
  cases w with
  | none => cases w' <;> cases v <;> cases v' <;> rfl
  | some c =>
    cases w' with
    | none => cases v <;> cases v' <;> rfl
    | some d =>
      have hne : c.val ≠ d.val := fun hcd => h c rfl (congrArg some (Fin.ext hcd.symm))
      cases v with
      | none => cases v' <;> rfl
      | some v =>
        cases v' with
        | none => rfl
        | some v' => exact List.set_comm v v' hne

/-- The number of result bytes of a reply with status OK (R31); an error has none. -/
theorem replyTo_result_length {nctx : Nat} {e : Engine} {r : Reply} (hw : i.wf nctx = true)
    (h : replyTo e i = some r) :
    (∃ st, st ≠ .ok ∧ r = .error st) ∨ (r.status = .ok ∧ r.result.length = resultLength i) := by
  cases i with
  | init | copy | final | digest | xform | a64enc => cases h; exact .inr ⟨rfl, rfl⟩
  | attr sel => cases h; cases sel <;> exact .inr ⟨rfl, rfl⟩
  | finalhex | hexdigest | md5 => cases h; exact .inr ⟨rfl, hex_length_of_digest (engFinal_length _)⟩
  | hexenc dg => cases h; exact .inr ⟨rfl, hex_length_of_digest (Bytes.isFix_iff.mp hw)⟩
  | apr1enc password salt =>
    cases h
    refine .inr ⟨rfl, (apr1_length password salt).trans ?_⟩
    rw [resultLength]
    omega
  | update =>
    rw [replyTo] at h
    split at h <;> cases h
    exact .inr ⟨rfl, rfl⟩
  | apr1val =>
    rw [replyTo] at h
    split at h <;> cases h
    · exact .inl ⟨.malformed, nofun, rfl⟩
    · exact .inr ⟨rfl, rfl⟩

end Sys2Proof.Machine

namespace Sys2Proof

open Machine

/-! ### The statements about all commands -/

/-- Where no slot changed, a slot that the command names did not change either. -/
theorem Answers.widen {s t : State} {r : Bytes} (h : Answers s t none r) (w : Option SlotNo) : Answers s t w r :=
  { h with slots := fun k _ => h.slots k nofun }

/-- Settles O50: `exec_next`, whose two kinds of next state have the frame of a command. -/
theorem commandChangesOnlyTheSlotItNames : Obligations.CommandChangesOnlyTheSlotItNames := by
  intro i s t h
  obtain ⟨st, -, rfl⟩ | ⟨-, -, r, ⟨-, rfl⟩ | ⟨c, v, hc, rfl⟩⟩ := exec_next h
  · exact ⟨_, (Answers.respond s st []).widen _⟩
  · exact ⟨_, (Answers.respond s .ok r).widen _⟩
  · rw [hc]
    exact ⟨_, .setSlot_respond s c v .ok r⟩

/-- Settles O51: the errors of `exec_next` have no result and change nothing else. -/
theorem errorsChangeNothing : Obligations.ErrorsChangeNothing := by
  intro i s t h
  obtain ⟨st, -, rfl⟩ | ⟨-, -, r, ⟨-, rfl⟩ | ⟨c, v, -, rfl⟩⟩ := exec_next h
  · exact ⟨st, [], rfl, fun _ => ⟨rfl, rfl⟩⟩
  · exact ⟨.ok, r, rfl, fun hne => absurd rfl hne⟩
  · exact ⟨.ok, r, rfl, fun hne => absurd rfl hne⟩

theorem error_code_mem {st : Status} (h : st ≠ .ok) :
    [st.code] ∈ [[(0x01 : Byte)], [0x02], [0x03], [0x04]] := by
  cases st with
  | ok => exact absurd rfl h
  | illegal | seq | malformed | invariant => decide

/-- Settles O52: a reply is an error, or it has the number of result bytes that `replyTo_result_length` gives. -/
theorem responsesHaveTheirSizes : Obligations.ResponsesHaveTheirSizes := by
  intro i s t h
  obtain ⟨r, hr, rfl⟩ := exec_next_iff.mp h
  refine ⟨r.status.code :: r.result, by simp, ?_⟩
  have hcases : (∃ st, st ≠ .ok ∧ r = .error st) ∨ (r.status = .ok ∧ r.result.length = resultLength i) := by
    obtain herr | ⟨hw, e, -, hreply⟩ := reply_cases hr
    · exact .inl herr
    · exact replyTo_result_length hw hreply
  obtain ⟨st, hst, rfl⟩ | ⟨hok, hlen⟩ := hcases
  · exact .inl (error_code_mem hst)
  · exact .inr ⟨by rw [hok]; rfl, by rw [List.length_cons, hlen, Nat.add_comm]⟩

/-- Settles O54: the two states give the same reply, which writes the same slot contents or none. -/
theorem commandDependsOnlyOnTheSlotItReads : Obligations.CommandDependsOnlyOnTheSlotItReads := by
  intro i s s' t hh hn hread h
  obtain ⟨r, hr, rfl⟩ := exec_next_iff.mp h
  have hr' : s'.reply i = some r := by
    rw [← hr, State.reply, State.reply, hh, hn, State.read_congr hread]
  refine ⟨_, r.status.code :: r.result, exec_next_iff.mpr ⟨r, hr', rfl⟩, by simp, by simp, fun c hc => ?_⟩
  have hlen : s.ctx.length = s'.ctx.length := hn
  cases hv : r.write with
  | none => exact .inl (by simp)
  | some v => exact .inr (by simp [hc, List.getElem?_set, hlen])

/-- Settles O55: neither write changes what the other command reads, so both replies are as before, and writes to two
slots commute. -/
theorem commandsOnDifferentSlotsCommute : Obligations.CommandsOnDifferentSlotsCommute := by
  intro i j s s1 s2 hi hj h1 h2
  obtain ⟨r, hr, rfl⟩ := exec_next_iff.mp h1
  obtain ⟨q, hq, rfl⟩ := exec_next_iff.mp h2
  rw [reply_write_respond _ _ _ fun c hc => (hi c hc).2] at hq
  refine ⟨_, _, exec_next_iff.mpr ⟨q, hq, rfl⟩, exec_next_iff.mpr ⟨r, ?_, rfl⟩, ?_⟩
  · rw [reply_write_respond _ _ _ hj, hr]
  · exact (State.write_write_ctx _ _ _ _ _ _ fun c hc => (hi c hc).1).symm

end Sys2Proof

/-! ## PROOFS. The invariant (spec/10_state.md R26, spec/41_digest_engine.md R128) -/

namespace Sys2Proof.Machine

/-! ### Slots that hold the engine value of some data -/

theorem engInit_ofData : engInit.OfData := ⟨[], by unfold FitsCounter; decide, engUpdate_engInit_nil.symm⟩

/-- Within the counter limit an update joins the data to those the engine value came from (R123, R127). -/
theorem Engine.OfData.engUpdate {e : Engine} {data : Bytes} (h : e.OfData)
    (hlim : e.count.toNat + 8 * data.length < 2 ^ 64) : (engUpdate e data).OfData := by
  obtain ⟨old, hold, rfl⟩ := h
  rw [engUpdate_engInit_count hold] at hlim
  refine ⟨old ++ data, ?_, engUpdate_engUpdate engInit old data⟩
  rw [FitsCounter, List.length_append, Nat.mul_add]
  exact hlim

/-- What a command writes meets R128 where what it reads does. -/
theorem replyTo_write_ok {i : Instr} {e : Engine} {r : Reply} {v : Slot} (he : e.OfData) (h : replyTo e i = some r)
    (hv : r.write = some v) : v.Ok := by
  cases i with
  | init => cases h; cases hv; exact engInit_ofData
  | copy => cases h; cases hv; exact he
  | final | finalhex => cases h; cases hv; trivial
  | digest | hexdigest | md5 | xform | hexenc | a64enc | apr1enc | attr => cases h; cases hv
  | update =>
    rw [replyTo] at h
    split at h <;> cases h
    cases hv
    exact he.engUpdate ‹_›
  | apr1val =>
    rw [replyTo] at h
    split at h <;> cases h <;> cases hv

variable {s t : State} {i : Instr}

/-- A slot number reads a slot of the context file, or IDLE outside it. -/
theorem slot_ok (h : ∀ v ∈ s.ctx, v.Ok) (c : SlotNo) : (s.slot c).Ok := by
  by_cases hc : c.val < s.nctx
  · exact h _ (List.mem_of_getElem? (State.getElem?_of_lt s c hc))
  · rw [State.slot, List.getD_eq_default _ _ (not_lt.mp hc)]
    trivial

theorem read_ok (h : ∀ v ∈ s.ctx, v.Ok) : (s.read i).Ok := by
  unfold State.read
  cases readsSlot i with
  | none => exact engInit_ofData
  | some c => exact slot_ok h c

theorem reply_write_ok {r : Reply} {v : Slot} (h : ∀ v ∈ s.ctx, v.Ok) (hr : s.reply i = some r)
    (hv : r.write = some v) : v.Ok := by
  obtain ⟨st, -, rfl⟩ | ⟨-, e, he, hreply⟩ := reply_cases hr
  · cases hv
  · have hok : (s.read i).Ok := read_ok h
    rw [he] at hok
    exact replyTo_write_ok hok hreply hv

/-! ### Every step keeps the invariant -/

/-- The invariant is about the context file and HALT alone. -/
theorem Inv.congr (h : Inv s) (hctx : t.ctx = s.ctx) (hhalt : t.halt = s.halt) : Inv t := by
  obtain ⟨hpos, hle, hh, hok⟩ := h
  have hn : t.nctx = s.nctx := congrArg List.length hctx
  exact ⟨hn ▸ hpos, hn ▸ hle, hhalt.trans hh, hctx ▸ hok⟩

theorem Inv.setSlot (h : Inv s) (c : SlotNo) {v : Slot} (hv : v.Ok) : Inv (s.setSlot c v) where
  nctx_pos := by rw [State.setSlot_nctx]; exact h.nctx_pos
  nctx_le := by rw [State.setSlot_nctx]; exact h.nctx_le
  halt_clear := h.halt_clear
  slots_ok _ hu := (List.mem_or_eq_of_mem_set hu).elim (h.slots_ok _) fun hvu => hvu ▸ hv

theorem inv_resetBlock (hpos : 1 ≤ s.nctx) (hle : s.nctx ≤ Config.maxNctx) : Inv s.resetBlock where
  nctx_pos := by rw [State.resetBlock_nctx]; exact hpos
  nctx_le := by rw [State.resetBlock_nctx]; exact hle
  halt_clear := rfl
  slots_ok _ hv := by rw [List.eq_of_mem_replicate hv]; trivial

theorem Inv.exec (h : Inv s) (hx : exec i s = .next t) : Inv t := by
  obtain ⟨r, hr, rfl⟩ := exec_next_iff.mp hx
  have hwrite : Inv (s.write (writesSlot i) r.write) := by
    cases hw : writesSlot i with
    | none => cases r.write <;> exact h
    | some c =>
      cases hv : r.write with
      | none => exact h
      | some v => exact h.setSlot c (reply_write_ok h.slots_ok hr hv)
  exact hwrite.congr rfl rfl

theorem Inv.step (h : Inv s) (hs : step s = .next t) : Inv t := by
  have htake : ∀ more, Inv { s with commands := more } := fun _ => h.congr rfl rfl
  obtain ⟨-, rfl⟩ | ⟨more, -, rfl⟩ | ⟨f, more, st, -, rfl⟩ | ⟨f, more, i, -, hx⟩ := step_next hs
  · exact h
  · exact inv_resetBlock h.nctx_pos h.nctx_le
  · exact (htake more).congr rfl rfl
  · exact (htake more).exec hx

/-- No command changes the number of slots. -/
theorem exec_nctx (h : exec i s = .next t) : t.nctx = s.nctx := by
  obtain ⟨r, -, rfl⟩ := exec_next_iff.mp h
  simp

theorem step_nctx (h : step s = .next t) : t.nctx = s.nctx := by
  obtain ⟨-, rfl⟩ | ⟨more, -, rfl⟩ | ⟨f, more, st, -, rfl⟩ | ⟨f, more, i, -, hx⟩ := step_next h
  · rfl
  · exact State.resetBlock_nctx _
  · rfl
  · exact exec_nctx (s := { s with commands := more }) hx

end Sys2Proof.Machine

namespace Sys2Proof

open Machine

/-- Settles O56: the context file of `State.resetOf` holds IDLE slots alone. -/
theorem resetMeetsTheInvariant : Obligations.ResetMeetsTheInvariant := fun n hpos hle =>
  (inv_resetBlock (s := State.resetOf n) (by simpa) (by simpa [Config.maxNctx])).congr (by simp) rfl

/-- Settles O57: `Inv.step`, over the cases of `step_next`. -/
theorem stepKeepsTheInvariant : Obligations.StepKeepsTheInvariant := fun _ _ => Inv.step

theorem reachable_inv {n : Nat} {s : State} (hpos : 1 ≤ n) (hle : n ≤ 16) (h : Reachable n s) :
    Inv s ∧ s.nctx = n := by
  induction h with
  | reset => exact ⟨resetMeetsTheInvariant n hpos hle, State.resetOf_nctx n⟩
  | offer a _ ih => exact ⟨ih.1.congr rfl rfl, ih.2⟩
  | step _ hs ih => exact ⟨ih.1.step hs, (step_nctx hs).trans ih.2⟩

/-- Settles O58: `reachable_inv`, and what R128 says of an engine value that data give. -/
theorem reachableStatesMeetTheInvariant : Obligations.ReachableStatesMeetTheInvariant := by
  intro n s hpos hle h
  obtain ⟨hinv, hn⟩ := reachable_inv hpos hle h
  refine ⟨hinv, hn, fun e he => ?_⟩
  obtain ⟨data, hfit, hdata⟩ := hinv.slots_ok _ he
  obtain ⟨hbuf, hcount, hlen, -, -⟩ := slotHoldsTheUnconsumedTail e data hfit hdata
  exact ⟨hbuf, hcount, hlen⟩

end Sys2Proof

/-! ## PROOFS. The message machine (spec/41_digest_engine.md R128, R129) -/

namespace Sys2Proof.Machine

variable {m m' : MsgState} {i : Instr} {c : SlotNo}

/-! ### The correspondence -/

@[simp] theorem MsgState.concrete_nctx : m.concrete.nctx = m.ctx.length := List.length_map _

@[simp] theorem MsgState.concrete_answer (st : Status) (r : Bytes) :
    (m.answer st r).concrete = m.concrete.respond st r := rfl

@[simp] theorem MsgState.concrete_setSlot (v : Option Bytes) :
    (m.setSlot c v).concrete = m.concrete.setSlot c (slotOfMessage v) := by
  simp [MsgState.concrete, MsgState.setSlot, State.setSlot, List.map_set]

theorem MsgState.concrete_slot (m : MsgState) (c : SlotNo) :
    m.concrete.slot c = slotOfMessage (m.ctx.getD c.val none) :=
  List.getD_map _ none slotOfMessage

/-- A message that the machine holds fits the counter. -/
theorem MsgState.Ok.fits (h : m.Ok) {data : Bytes} (hc : m.ctx.getD c.val none = some data) : FitsCounter data := by
  refine h (some data) ?_ data rfl
  rw [List.getD_eq_getElem?_getD] at hc
  obtain ⟨v, hv, rfl⟩ : ∃ v, m.ctx[c.val]? = some v ∧ v = some data := by
    cases hg : m.ctx[c.val]? with
    | none => rw [hg] at hc; cases hc
    | some v => exact ⟨v, rfl, by simpa [hg] using hc⟩
  exact List.mem_of_getElem? hv

/-- A command that needs an ACTIVE slot corresponds where its effects on the message and on the engine value of that
message do. -/
theorem concreteOutcome_withMessage {f : Bytes → MsgResult} {g : Engine → Result}
    (h : ∀ data, m.ctx.getD c.val none = some data → concreteOutcome (f data) = g (engUpdate engInit data)) :
    concreteOutcome (m.withMessage c f) = m.concrete.withActive c g := by
  have hslot := MsgState.concrete_slot m c
  unfold MsgState.withMessage
  cases hc : m.ctx.getD c.val none with
  | none =>
    rw [hc] at hslot
    exact (State.withActive_idle hslot).symm
  | some data =>
    rw [hc] at hslot
    exact (h data hc).trans (State.withActive_active hslot).symm

/-- A legal command, by a block that is not halted: the digest of a slot is MD5 of its message. -/
theorem exec_concrete (hok : m.Ok) (hh : m.halt = false) (hw : i.wf m.ctx.length = true) :
    exec i m.concrete = concreteOutcome (msgCommand i m) := by
  have hlegal : ∀ body, m.concrete.command i body = body := fun body =>
    State.command_legal hh (MsgState.concrete_nctx.symm ▸ hw)
  cases i with
  | init cd => simp [exec, execInit, hlegal, msgCommand, concreteOutcome, State.ok, slotOfMessage]
  | md5 | xform | hexenc | a64enc | apr1enc | attr => exact hlegal _
  | apr1val password stored =>
    refine (hlegal _).trans ?_
    rw [msgCommand]
    cases validate password stored with
    | none => rfl
    | some ok => rfl
  | final cd | finalhex cd | copy cd cs =>
    refine (hlegal _).trans (concreteOutcome_withMessage fun data _ => ?_).symm
    simp [concreteOutcome, State.ok, slotOfMessage, md5]
  | digest cs | hexdigest cs => exact (hlegal _).trans (concreteOutcome_withMessage fun data _ => rfl).symm
  | update cd new =>
    refine (hlegal _).trans (concreteOutcome_withMessage fun old hold => ?_).symm
    have hlim : 8 * (old ++ new).length = (engUpdate engInit old).count.toNat + 8 * new.length := by
      rw [engUpdate_engInit_count (hok.fits hold), List.length_append, Nat.mul_add]
    rw [hlim]
    split
    · simp [concreteOutcome, State.ok, slotOfMessage]
    · rfl

/-- One frame: the decoder and the checks are the same. -/
theorem serveFrame_concrete (f : Bytes) (hok : m.Ok) :
    serveFrame f m.concrete = concreteOutcome (msgFrame f m) := by
  unfold msgFrame
  split
  case isTrue hh => exact serveFrame_of_halt f hh
  case isFalse hh =>
    replace hh : m.halt = false := Bool.eq_false_iff.mpr hh
    have hn : m.concrete.nctx = m.ctx.length := MsgState.concrete_nctx
    split
    case h_1 why hd => exact serveFrame_of_error hh (hn ▸ hd)
    case h_2 i hd =>
      exact (serveFrame_of_ok hh (hn ▸ hd)).trans (exec_concrete hok hh (encode_of_decodeFrame hd).2)

/-- One step. -/
theorem step_concrete (hok : m.Ok) : step m.concrete = concreteOutcome (msgStep m) := by
  unfold msgStep
  split
  case h_1 hc => exact step_of_nil hc
  case h_2 rest hc =>
    refine (step_of_cons hc).trans ?_
    simp [serve, State.resetBlock, concreteOutcome, MsgState.concrete, State.nctx, slotOfMessage]
  case h_3 f rest hc =>
    exact (step_of_cons (a := .frame f) (rest := rest) hc).trans
      (serveFrame_concrete f (m := { m with commands := rest }) hok)

/-! ### Messages keep fitting the counter -/

theorem MsgState.Ok.setSlot (h : m.Ok) (c : SlotNo) {v : Option Bytes}
    (hv : ∀ data, v = some data → FitsCounter data) : (m.setSlot c v).Ok := fun u hu =>
  (List.mem_or_eq_of_mem_set hu).elim (h u) fun huv => huv ▸ hv

/-- What a command on a message that fits leaves, where its effect on that message keeps the messages fitting. -/
theorem MsgState.Ok.withMessage (h : m.Ok) {f : Bytes → MsgResult} (hx : m.withMessage c f = .next m')
    (hf : ∀ data, FitsCounter data → f data = .next m' → m'.Ok) : m'.Ok := by
  unfold MsgState.withMessage at hx
  split at hx
  case h_1 => cases hx; exact h
  case h_2 data hc => exact hf data (h.fits hc) hx

theorem MsgState.Ok.msgCommand (h : m.Ok) (hx : msgCommand i m = .next m') : m'.Ok := by
  cases i with
  | init cd =>
    cases hx
    exact h.setSlot cd fun data hd => by cases hd; unfold FitsCounter; decide
  | md5 | xform | hexenc | a64enc | apr1enc | attr => cases hx; exact h
  | apr1val =>
    rw [Machine.msgCommand] at hx
    split at hx <;> cases hx <;> exact h
  | digest cs | hexdigest cs => exact h.withMessage hx fun _ _ hd => by cases hd; exact h
  | final cd | finalhex cd => exact h.withMessage hx fun _ _ hd => by cases hd; exact h.setSlot cd nofun
  | copy cd cs =>
    exact h.withMessage hx fun _ hfit hd => by
      cases hd
      exact h.setSlot cd fun _ he => by cases he; exact hfit
  | update cd new =>
    refine h.withMessage hx fun _ _ hd => ?_
    split at hd <;> cases hd
    exact h.setSlot cd fun _ he => by cases he; assumption

theorem MsgState.Ok.msgStep (h : m.Ok) (hx : msgStep m = .next m') : m'.Ok := by
  unfold Machine.msgStep at hx
  split at hx
  case h_1 => cases hx; exact h
  case h_2 =>
    cases hx
    intro v hv data hd
    rw [List.eq_of_mem_replicate hv] at hd
    cases hd
  case h_3 f rest _ =>
    unfold msgFrame at hx
    split at hx
    case isTrue => cases hx; exact h
    case isFalse =>
      split at hx
      case h_1 => cases hx; exact h
      case h_2 i hd => exact MsgState.Ok.msgCommand (m := { m with commands := rest }) h hx

end Sys2Proof.Machine

namespace Sys2Proof

open Machine

/-- Settles O59: the two reset states correspond, `step_concrete`, and the messages keep fitting the counter. -/
theorem blockSimulatesTheMessageMachine : Obligations.BlockSimulatesTheMessageMachine := by
  refine ⟨fun n => ⟨?reset, ?ok⟩, fun m => step_concrete, fun m m' => MsgState.Ok.msgStep⟩
  case reset => simp [MsgState.concrete, MsgState.resetOf, State.resetOf, slotOfMessage]
  case ok =>
    intro v hv data hd
    rw [List.eq_of_mem_replicate hv] at hd
    cases hd

end Sys2Proof
